-- ==== Sys2Proof/Word.lean ====
section
/-! DEFINITION. The vector types of the block: bytes of the two streams, instruction words, register ids. -/

namespace Sys2Proof

/-- The unit of the input and output streams (20_memory.md R41, R42). -/
abbrev Byte := BitVec 8

/-- An instruction word, bit 0 the least significant (00_scope.md R6 `WORD_W`, R7; 30_encoding.md R60, R61). -/
abbrev Word := BitVec 32

/-- A register id, 0 to 31 (10_state.md R20; 00_scope.md R6 `REG_W`). -/
abbrev RegId := BitVec 5

end Sys2Proof
end

