-- ==== Sys2Proof/Config.lean ====
section
/-! DEFINITION. What an implementation of the block fixes and the spec leaves open: the parameter `P_LITOVF`. -/

namespace Sys2Proof

/-- The two readings of a literal of 2^32 or more (00_scope.md R6 `P_LITOVF`; 42_parser.md R169; D23). -/
inductive LitOvf where
  /-- take the magnitude modulo 2^32 -/
  | reduce
  /-- the line fails to parse -/
  | reject
  deriving DecidableEq, Repr, Inhabited

/-- The reading this block has. The spec leaves it OPEN (D23), so it has no body: a claim about `step` holds for
both readings (log 3). -/
opaque Config.litOvf : LitOvf

end Sys2Proof
end

