-- ==== Sys2Proof/Syntax.lean ====
section
/-! DEFINITION. The eleven operations of the operation constant table (41_instruction_model.md R130). -/

namespace Sys2Proof

/-- One operation with its operands, one constructor per row of the opcode table. `imm` is the source magnitude
modulo 2^32 (R131 `lu_imm`), of which the lowering keeps what its rule says. -/
inductive Instr where
  /-- R140 -/
  | addi (rd rs1 : RegId) (imm : Word)
  /-- R141 -/
  | slti (rd rs1 : RegId) (imm : Word)
  /-- R142 -/
  | sltiu (rd rs1 : RegId) (imm : Word)
  /-- R143 -/
  | andi (rd rs1 : RegId) (imm : Word)
  /-- R144 -/
  | ori (rd rs1 : RegId) (imm : Word)
  /-- R145 -/
  | xori (rd rs1 : RegId) (imm : Word)
  /-- R146 -/
  | slli (rd rs1 : RegId) (imm : Word)
  /-- R147 -/
  | srli (rd rs1 : RegId) (imm : Word)
  /-- R148 -/
  | srai (rd rs1 : RegId) (imm : Word)
  /-- R149 -/
  | nop
  /-- R150 -/
  | add (rd rs1 rs2 : RegId)
  deriving DecidableEq, Repr

end Sys2Proof
end

