-- ==== Sys2Proof/Decode.lean ====
section
/-! DEFINITION. The opcode table read both ways: word to operation (the decoder that 30_encoding.md R75 speaks of) and
operation to word. Both follow the match, mask and encoding columns of spec/opcode_table.json. The block itself holds
no instruction-level decoder (00_scope.md R5): this one is the model's, for naming table words (log 4). The format
decoder of the block is in Machine/FormatCodec.lean, and its lowering in Machine/Lowering.lean. -/

namespace Sys2Proof

/-- Why a byte sequence names no operation. -/
inductive DecodeReject where
  /-- fewer than the four bytes of a word (R60) -/
  | truncated
  /-- no row of the opcode table matches the word -/
  | noRow
  deriving DecidableEq, Repr

inductive Decoded where
  | instr (i : Instr)
  | rejected (why : DecodeReject)
  deriving DecidableEq, Repr

/-! ### Fields of a word (30_encoding.md R62, R65) -/

def fieldRd (w : Word) : RegId := w.extractLsb' 7 5
def fieldRs1 (w : Word) : RegId := w.extractLsb' 15 5
def fieldRs2 (w : Word) : RegId := w.extractLsb' 20 5

/-- `imm[11:0]`, bits 31:20, sign-extended as the I format reads it (R65, R109). -/
def fieldImm12 (w : Word) : Word := (w.extractLsb' 20 12).signExtend 32

/-- The shift amount, bits 24:20 of a shift row (`shamt (imm[4:0])`). -/
def fieldShamt (w : Word) : Word := (w.extractLsb' 20 5).setWidth 32

/-! ### The rows -/

/-- A row of the opcode table: the word bits it fixes, their values, and how the rest is read. A row matches a word
whose bits under the mask have the pattern's values. -/
structure DecodeRow where
  mask : Word
  pattern : Word
  read : Word → Instr

def readImmForm (op : RegId → RegId → Word → Instr) (w : Word) : Instr := op (fieldRd w) (fieldRs1 w) (fieldImm12 w)
def readShiftForm (op : RegId → RegId → Word → Instr) (w : Word) : Instr := op (fieldRd w) (fieldRs1 w) (fieldShamt w)

/-- spec/opcode_table.json, with `nop` before `addi` (R75: prefer `nop` for exactly 0x00000013). -/
def decodeRows : List DecodeRow :=
  [ ⟨0xFFFFFFFF, 0x00000013, fun _ => .nop⟩,
    ⟨0x0000707F, 0x00000013, readImmForm .addi⟩,
    ⟨0x0000707F, 0x00002013, readImmForm .slti⟩,
    ⟨0x0000707F, 0x00003013, readImmForm .sltiu⟩,
    ⟨0x0000707F, 0x00007013, readImmForm .andi⟩,
    ⟨0x0000707F, 0x00006013, readImmForm .ori⟩,
    ⟨0x0000707F, 0x00004013, readImmForm .xori⟩,
    ⟨0xFE00707F, 0x00001013, readShiftForm .slli⟩,
    ⟨0xFE00707F, 0x00005013, readShiftForm .srli⟩,
    ⟨0xFE00707F, 0x40005013, readShiftForm .srai⟩,
    ⟨0xFE00707F, 0x00000033, fun w => .add (fieldRd w) (fieldRs1 w) (fieldRs2 w)⟩ ]

/-- The operation that the first matching row of a list reads. -/
def decodeByRows : List DecodeRow → Word → Decoded
  | [], _ => .rejected .noRow
  | r :: rs, w => if w &&& r.mask = r.pattern then .instr (r.read w) else decodeByRows rs w

/-- The operation a word names: the first row of the opcode table that matches it. -/
def decodeWord (w : Word) : Decoded := decodeByRows decodeRows w

/-- Four bytes, first byte least significant (20_memory.md R43). -/
def wordOfBytes (b0 b1 b2 b3 : Byte) : Word := b3 ++ b2 ++ b1 ++ b0

/-- The operation at the start of a byte sequence. Total; rejects by name. -/
def decode : List Byte → Decoded
  | b0 :: b1 :: b2 :: b3 :: _ => decodeWord (wordOfBytes b0 b1 b2 b3)
  | _ => .rejected .truncated

/-! ### The encoder -/

/-- A word of a row with pattern `pattern`, rd in 11:7 and rs1 in 19:15, and `field` placed at bit 20. -/
def placeFields (pattern : Word) (rd rs1 : RegId) (field : Word) : Word :=
  pattern ||| field <<< 20 ||| rs1.setWidth 32 <<< 15 ||| rd.setWidth 32 <<< 7

/-- A row `iiiiiiiiiiiisssss...ddddd.......`: twelve immediate bits. -/
def placeImm (pattern : Word) (rd rs1 : RegId) (imm : Word) : Word := placeFields pattern rd rs1 (imm &&& 0xFFF)

/-- A row `.......tttttsssss...ddddd.......`: five shift-amount bits. -/
def placeShamt (pattern : Word) (rd rs1 : RegId) (imm : Word) : Word := placeFields pattern rd rs1 (imm &&& 0x1F)

/-- The word of an operation, from the encoding column of the opcode table. -/
def encode : Instr → Word
  | .addi rd rs1 imm => placeImm 0x00000013 rd rs1 imm
  | .slti rd rs1 imm => placeImm 0x00002013 rd rs1 imm
  | .sltiu rd rs1 imm => placeImm 0x00003013 rd rs1 imm
  | .andi rd rs1 imm => placeImm 0x00007013 rd rs1 imm
  | .ori rd rs1 imm => placeImm 0x00006013 rd rs1 imm
  | .xori rd rs1 imm => placeImm 0x00004013 rd rs1 imm
  | .slli rd rs1 imm => placeShamt 0x00001013 rd rs1 imm
  | .srli rd rs1 imm => placeShamt 0x00005013 rd rs1 imm
  | .srai rd rs1 imm => placeShamt 0x40005013 rd rs1 imm
  | .nop => 0x00000013
  | .add rd rs1 rs2 => placeFields 0x00000033 rd rs1 (rs2.setWidth 32)

/-- Byte `k` of the number `w`. -/
def byteOfNat (w k : Nat) : Byte := BitVec.ofNat 8 (w >>> (8 * k))

/-- The operation the decoder reads from a table word of `nbits` bits, laid out first byte least significant. -/
def decodeTableWord (nbits w : Nat) : Option Instr :=
  let v := w % 2 ^ nbits
  match decode [byteOfNat v 0, byteOfNat v 1, byteOfNat v 2, byteOfNat v 3] with
  | .instr i => some i
  | .rejected _ => none

end Sys2Proof
end

