-- ==== Sys2Proof/Machine/State.lean ====
section
/-! DEFINITION. The state of the block: the pass state of 10_state.md R30, stage 3's word list, the values the host
drives on the ports, and what the host does next. The block has no register values, program counter, flags, control
registers or memory (R25 to R28, R40), so none is here. -/

namespace Sys2Proof.Machine

/-! ### Errors (60_exceptions.md R210) -/

/-- The failed host operation that an I/O error names. -/
inductive HostOp where
  | read
  | write
  deriving DecidableEq, Repr

/-- The error records but `E_NONE`, each with its payload (R210). Where an error may be absent its type is
`Option ErrorRecord`, and `none` is `E_NONE`. -/
inductive ErrorRecord where
  /-- `E_IO_READ`: the failed operation. Raised by stage 1 (R191, R211). -/
  | ioRead (failed : HostOp)
  /-- `E_IO_WRITE`: the failed operation and how many bytes the host received. Raised by stage 4 (R194, R212). -/
  | ioWrite (failed : HostOp) (received : Nat)
  /-- `E_PARSE`: the number, from 1, of the first line that fails. Raised by stage 2 (R170, R213). -/
  | parse (line : Nat)
  /-- `E_UNSUPPORTED`: the operation selector. Raised by the lowering unit and stage 3 (R151, R214). -/
  | unsupported (op : BitVec 4)
  /-- `E_FMT`: the format selector. Raised by the format codec (R114, R215). -/
  | fmt (sel : BitVec 3)
  deriving DecidableEq, Repr

/-! ### Operations and ports -/

/-- An element of `prog` (R30, R172) and the inputs of the lowering unit (41_instruction_model.md R131). -/
structure Op where
  op : BitVec 4
  rd : RegId
  rs1 : RegId
  rs2 : RegId
  imm : Word
  deriving DecidableEq, Repr

/-- The inputs of the encoder (40_format_codec.md R100). -/
structure EncIn where
  fmt : BitVec 3
  opcode : BitVec 7
  funct3 : BitVec 3
  funct7 : BitVec 7
  rd : RegId
  rs1 : RegId
  rs2 : RegId
  imm : Word
  deriving DecidableEq, Repr

/-- The inputs of the decoder (R100). -/
structure DecIn where
  fmt : BitVec 3
  word : Word
  deriving DecidableEq, Repr

/-! ### The pass state (10_state.md R30, R31) -/

inductive Phase where
  | idle
  | done
  | failed
  deriving DecidableEq, Repr

structure PassState where
  phase : Phase
  inbuf : List Byte
  prog : List Op
  outbuf : List Byte
  err : Option ErrorRecord
  deriving DecidableEq, Repr

/-- R31: Idle, three empty sequences, no error. -/
def PassState.reset : PassState := ⟨.idle, [], [], [], none⟩

/-! ### What the host does (43_pass_and_emitter.md R197, R199; 70_reset_and_hazards.md R240) -/

/-- One action of the host on the block. -/
inductive Request where
  /-- Run a pass over `input`. `rdFail` and `wrFail` are the host's draws of R197 (log 2). -/
  | pass (input : List Byte) (rdFail : Bool) (wrFail : Option Nat)
  /-- Drive the encoder's inputs directly (R199). -/
  | encode (p : EncIn)
  /-- Drive the decoder's inputs directly (R199). -/
  | decode (p : DecIn)
  /-- Drive the lowering unit's inputs directly (R199). -/
  | lower (p : Op)
  /-- Reset, which falls between passes (R240, R241). -/
  | reset
  deriving DecidableEq, Repr

/-- The machine. `requests` is the model's own field: the host's actions still to come, first first (log 1). -/
structure State where
  /-- the pass state (R30) -/
  pass : PassState
  /-- the words stage 3 has lowered so far (R190), empty outside a pass (log 6) -/
  words : List Word
  /-- what the host last drove on the encoder (R100, log 7) -/
  encIn : EncIn
  /-- what the host last drove on the decoder (R100, log 7) -/
  decIn : DecIn
  /-- what the host last drove on the lowering unit (R131, log 7) -/
  luIn : Op
  /-- what the host does next (log 1) -/
  requests : List Request
  deriving DecidableEq, Repr

/-- The pass state as R31 says; the ports and the requests as logs 1 and 7 say (DESIGN CHOICE: all inputs 0, nothing
requested). -/
def State.reset : State where
  pass := PassState.reset
  words := []
  encIn := ⟨0, 0, 0, 0, 0, 0, 0, 0⟩
  decIn := ⟨0, 0⟩
  luIn := ⟨0, 0, 0, 0, 0⟩
  requests := []

/-- The reasons the machine stops: none. Every error of the spec is a value of the error record and a final pass
state, "never an uncontrolled stop" (60_exceptions.md R221). Safe: nothing stops where the block goes on. -/
inductive Fault where
  deriving DecidableEq, Repr

/-- The reasons an operation has no meaning in this model. -/
inductive Refusal where
  /-- An arm of `exec` that has no meaning yet would raise it; no arm does. Safe. -/
  | notModelled (mnemonic : String)
  deriving DecidableEq, Repr

end Sys2Proof.Machine
end

