-- ==== Sys2Proof/Machine/FormatCodec.lean ====
section
/-! DEFINITION. Unit FC, the format codec: encode and decode for each of the six formats (40_format_codec.md R100 to
R120) over the layouts of 30_encoding.md R62 to R73. `v.extractLsb' lo n` is the spec's `v[lo+n-1:lo]`. -/

namespace Sys2Proof.Machine

/-- The six formats, in the order of their selectors (30_encoding.md R77). -/
inductive Format where
  | r
  | i
  | s
  | sb
  | u
  | uj
  deriving DecidableEq, Repr

/-- R77: 0 to 5 select a format, 6 and 7 are reserved. -/
def formatOfSelector (sel : BitVec 3) : Option Format :=
  match sel.toNat with
  | 0 => some .r
  | 1 => some .i
  | 2 => some .s
  | 3 => some .sb
  | 4 => some .u
  | 5 => some .uj
  | _ => none

/-- A format record: exactly the fields its format has (30_encoding.md R63), with a 32-bit immediate (D8). -/
inductive FormatRecord where
  | r (opcode : BitVec 7) (rd : RegId) (funct3 : BitVec 3) (rs1 rs2 : RegId) (funct7 : BitVec 7)
  | i (opcode : BitVec 7) (rd : RegId) (funct3 : BitVec 3) (rs1 : RegId) (imm : Word)
  | s (opcode : BitVec 7) (funct3 : BitVec 3) (rs1 rs2 : RegId) (imm : Word)
  | sb (opcode : BitVec 7) (funct3 : BitVec 3) (rs1 rs2 : RegId) (imm : Word)
  | u (opcode : BitVec 7) (rd : RegId) (imm : Word)
  | uj (opcode : BitVec 7) (rd : RegId) (imm : Word)
  deriving DecidableEq, Repr

def FormatRecord.format : FormatRecord → Format
  | .r .. => .r
  | .i .. => .i
  | .s .. => .s
  | .sb .. => .sb
  | .u .. => .u
  | .uj .. => .uj

/-- The record's immediate; 0 for R, which has none (R100: for the R format `dec_imm` is 0). -/
def FormatRecord.imm : FormatRecord → Word
  | .r .. => 0
  | .i _ _ _ _ imm => imm
  | .s _ _ _ _ imm => imm
  | .sb _ _ _ _ imm => imm
  | .u _ _ imm => imm
  | .uj _ _ imm => imm

/-- The record with another immediate; an R record has none to change. -/
def FormatRecord.withImm (rec : FormatRecord) (imm : Word) : FormatRecord :=
  match rec with
  | .r opcode rd funct3 rs1 rs2 funct7 => .r opcode rd funct3 rs1 rs2 funct7
  | .i opcode rd funct3 rs1 _ => .i opcode rd funct3 rs1 imm
  | .s opcode funct3 rs1 rs2 _ => .s opcode funct3 rs1 rs2 imm
  | .sb opcode funct3 rs1 rs2 _ => .sb opcode funct3 rs1 rs2 imm
  | .u opcode rd _ => .u opcode rd imm
  | .uj opcode rd _ => .uj opcode rd imm

/-! ### Encode -/

/-- ENC.R (R102, layout R64). -/
def encR (opcode : BitVec 7) (rd : RegId) (funct3 : BitVec 3) (rs1 rs2 : RegId) (funct7 : BitVec 7) : Word :=
  funct7 ++ rs2 ++ rs1 ++ funct3 ++ rd ++ opcode

/-- ENC.I (R103, layout R65). -/
def encI (opcode : BitVec 7) (rd : RegId) (funct3 : BitVec 3) (rs1 : RegId) (imm : Word) : Word :=
  imm.extractLsb' 0 12 ++ rs1 ++ funct3 ++ rd ++ opcode

/-- ENC.S (R104, layout R66). -/
def encS (opcode : BitVec 7) (funct3 : BitVec 3) (rs1 rs2 : RegId) (imm : Word) : Word :=
  imm.extractLsb' 5 7 ++ rs2 ++ rs1 ++ funct3 ++ imm.extractLsb' 0 5 ++ opcode

/-- ENC.SB (R105, layout R67). -/
def encSB (opcode : BitVec 7) (funct3 : BitVec 3) (rs1 rs2 : RegId) (imm : Word) : Word :=
  imm.extractLsb' 12 1 ++ imm.extractLsb' 5 6 ++ rs2 ++ rs1 ++ funct3 ++ imm.extractLsb' 1 4 ++ imm.extractLsb' 11 1
    ++ opcode

/-- ENC.U (R106, layout R68): the immediate is the positioned 32-bit value (C1). -/
def encU (opcode : BitVec 7) (rd : RegId) (imm : Word) : Word :=
  imm.extractLsb' 12 20 ++ rd ++ opcode

/-- ENC.UJ (R107, layout R69). -/
def encUJ (opcode : BitVec 7) (rd : RegId) (imm : Word) : Word :=
  imm.extractLsb' 20 1 ++ imm.extractLsb' 1 10 ++ imm.extractLsb' 11 1 ++ imm.extractLsb' 12 8 ++ rd ++ opcode

/-- ENC of a record in its own format. -/
def encodeRecord : FormatRecord → Word
  | .r opcode rd funct3 rs1 rs2 funct7 => encR opcode rd funct3 rs1 rs2 funct7
  | .i opcode rd funct3 rs1 imm => encI opcode rd funct3 rs1 imm
  | .s opcode funct3 rs1 rs2 imm => encS opcode funct3 rs1 rs2 imm
  | .sb opcode funct3 rs1 rs2 imm => encSB opcode funct3 rs1 rs2 imm
  | .u opcode rd imm => encU opcode rd imm
  | .uj opcode rd imm => encUJ opcode rd imm

/-! ### Decode -/

/-! The shared fields, at the same bits in every format (R62). -/

def wordOpcode (w : Word) : BitVec 7 := w.extractLsb' 0 7
def wordRd (w : Word) : RegId := w.extractLsb' 7 5
def wordFunct3 (w : Word) : BitVec 3 := w.extractLsb' 12 3
def wordRs1 (w : Word) : RegId := w.extractLsb' 15 5
def wordRs2 (w : Word) : RegId := w.extractLsb' 20 5
def wordFunct7 (w : Word) : BitVec 7 := w.extractLsb' 25 7

/-- The immediate of DEC.I (R109). -/
def gatherI (w : Word) : Word := (w.extractLsb' 20 12).signExtend 32

/-- The immediate of DEC.S (R110; sign-extended from its bit 11, C2). -/
def gatherS (w : Word) : Word := (w.extractLsb' 25 7 ++ w.extractLsb' 7 5).signExtend 32

/-- The immediate of DEC.SB (R111): 13 bits, then extended. -/
def gatherSB (w : Word) : Word :=
  (w.extractLsb' 31 1 ++ w.extractLsb' 7 1 ++ w.extractLsb' 25 6 ++ w.extractLsb' 8 4 ++ 0#1).signExtend 32

/-- The immediate of DEC.U (R112). -/
def gatherU (w : Word) : Word := w.extractLsb' 12 20 ++ 0#12

/-- The immediate of DEC.UJ (R113): 21 bits, then extended. -/
def gatherUJ (w : Word) : Word :=
  (w.extractLsb' 31 1 ++ w.extractLsb' 12 8 ++ w.extractLsb' 20 1 ++ w.extractLsb' 21 10 ++ 0#1).signExtend 32

/-- DEC of a word in a format (R108 to R113). -/
def decodeRecord : Format → Word → FormatRecord
  | .r, w => .r (wordOpcode w) (wordRd w) (wordFunct3 w) (wordRs1 w) (wordRs2 w) (wordFunct7 w)
  | .i, w => .i (wordOpcode w) (wordRd w) (wordFunct3 w) (wordRs1 w) (gatherI w)
  | .s, w => .s (wordOpcode w) (wordFunct3 w) (wordRs1 w) (wordRs2 w) (gatherS w)
  | .sb, w => .sb (wordOpcode w) (wordFunct3 w) (wordRs1 w) (wordRs2 w) (gatherSB w)
  | .u, w => .u (wordOpcode w) (wordRd w) (gatherU w)
  | .uj, w => .uj (wordOpcode w) (wordRd w) (gatherUJ w)

/-! ### Immediates -/

/-- `Canon_F` (30_encoding.md R73); an R record has no immediate, and its canonical one is 0. -/
def canonImm : Format → Word → Word
  | .r, _ => 0
  | .i, v => (v.extractLsb' 0 12).signExtend 32
  | .s, v => (v.extractLsb' 0 12).signExtend 32
  | .sb, v => (v.extractLsb' 1 12 ++ 0#1).signExtend 32
  | .u, v => v.extractLsb' 12 20 ++ 0#12
  | .uj, v => (v.extractLsb' 1 20 ++ 0#1).signExtend 32

/-- The immediate domain of a format, read as signed (30_encoding.md R72). -/
def immDomain : Format → Word → Prop
  | .r, v => v = 0
  | .i, v => -2048 ≤ v.toInt ∧ v.toInt ≤ 2047
  | .s, v => -2048 ≤ v.toInt ∧ v.toInt ≤ 2047
  | .sb, v => -4096 ≤ v.toInt ∧ v.toInt ≤ 4094 ∧ v.toInt % 2 = 0
  | .u, v => v.toInt % 4096 = 0
  | .uj, v => -1048576 ≤ v.toInt ∧ v.toInt ≤ 1048574 ∧ v.toInt % 2 = 0

/-- What becomes of one immediate bit (30_encoding.md R70). -/
inductive ImmBit where
  /-- `word[n]`: stored at word bit `n` -/
  | word (n : Nat)
  /-- `z`: dropped on encode, 0 on decode -/
  | zero
  /-- `s`: dropped on encode, the format's sign bit on decode -/
  | sign
  deriving DecidableEq, Repr

/-- The scatter table of R70, column by column; the R format has no immediate. -/
def scatter : Format → Nat → ImmBit
  | .r, _ => .zero
  | .i, i => if i < 12 then .word (20 + i) else .sign
  | .s, i => if i < 5 then .word (7 + i) else if i < 12 then .word (20 + i) else .sign
  | .sb, i =>
    if i = 0 then .zero else if i < 5 then .word (7 + i) else if i < 11 then .word (20 + i)
    else if i = 11 then .word 7 else if i = 12 then .word 31 else .sign
  | .u, i => if i < 12 then .zero else .word i
  | .uj, i =>
    if i = 0 then .zero else if i < 11 then .word (20 + i) else if i = 11 then .word 20
    else if i < 20 then .word i else if i = 20 then .word 31 else .sign

/-- The top stored bit of a format's immediate, from which decode extends (30_encoding.md R70, R71). U needs no
extension, and its sign is its own bit 31; R has no immediate. -/
def signBit : Format → Nat
  | .r => 31
  | .i => 11
  | .s => 11
  | .sb => 12
  | .u => 31
  | .uj => 20

/-- The record with every field 0. -/
def zeroRecord : Format → FormatRecord
  | .r => .r 0 0 0 0 0 0
  | .i => .i 0 0 0 0 0
  | .s => .s 0 0 0 0 0
  | .sb => .sb 0 0 0 0 0
  | .u => .u 0 0 0
  | .uj => .uj 0 0 0

/-! ### The ports (40_format_codec.md R100) -/

structure EncOut where
  word : Word
  err : Option ErrorRecord
  deriving DecidableEq, Repr

structure DecOut where
  opcode : BitVec 7
  rd : RegId
  funct3 : BitVec 3
  rs1 : RegId
  rs2 : RegId
  funct7 : BitVec 7
  imm : Word
  err : Option ErrorRecord
  deriving DecidableEq, Repr

/-- The record the encoder's inputs give in a format: an input that names a field the format lacks is ignored
(R100). -/
def recordOfPorts : Format → EncIn → FormatRecord
  | .r, p => .r p.opcode p.rd p.funct3 p.rs1 p.rs2 p.funct7
  | .i, p => .i p.opcode p.rd p.funct3 p.rs1 p.imm
  | .s, p => .s p.opcode p.funct3 p.rs1 p.rs2 p.imm
  | .sb, p => .sb p.opcode p.funct3 p.rs1 p.rs2 p.imm
  | .u, p => .u p.opcode p.rd p.imm
  | .uj, p => .uj p.opcode p.rd p.imm

/-- The encoder: the word, or `E_FMT` with word 0 for a reserved selector (R114). -/
def encodePorts (p : EncIn) : EncOut :=
  match formatOfSelector p.fmt with
  | some f => ⟨encodeRecord (recordOfPorts f p), none⟩
  | none => ⟨0, some (.fmt p.fmt)⟩

/-- The decoder: every shared field from its fixed bits whatever the format, and the format's immediate (R100, D4);
`E_FMT` and all outputs 0 for a reserved selector (R114). -/
def decodePorts (p : DecIn) : DecOut :=
  match formatOfSelector p.fmt with
  | some f =>
    { opcode := wordOpcode p.word, rd := wordRd p.word, funct3 := wordFunct3 p.word, rs1 := wordRs1 p.word,
      rs2 := wordRs2 p.word, funct7 := wordFunct7 p.word, imm := (decodeRecord f p.word).imm, err := none }
  | none => ⟨0, 0, 0, 0, 0, 0, 0, some (.fmt p.fmt)⟩

end Sys2Proof.Machine
end

