-- ==== Sys2Proof/Machine/Ops.lean ====
section
/-! DEFINITION. The operations the meanings and the pass share: emitting a word, serialising it, beginning a pass and
failing one. Failing a pass is this block's one way of taking an exception (60_exceptions.md R219), and beginning a
pass is all there is to returning from one (R220). -/

namespace Sys2Proof.Machine

/-- Run `f` on the next state, or stop as `o` stopped. -/
def andThen (o : Host.Outcome State Fault Refusal) (f : State → Host.Outcome State Fault Refusal) :
    Host.Outcome State Fault Refusal :=
  match o with
  | .next s => f s
  | .fault r => .fault r
  | .refused r => .refused r

/-- `append w to words` (43_pass_and_emitter.md R190, stage 3). -/
def appendWord (w : Word) (s : State) : State := { s with words := s.words ++ [w] }

/-- `Bytes(w)`, little-endian (20_memory.md R43). -/
def bytesOfWord (w : Word) : List Byte :=
  [w.extractLsb' 0 8, w.extractLsb' 8 8, w.extractLsb' 16 8, w.extractLsb' 24 8]

/-- The bytes of a list of words, first word first (R42, R193). -/
def bytesOfWords (ws : List Word) : List Byte := ws.flatMap bytesOfWord

/-- An error ends the pass: it sets `err` and `phase`, and nothing else (R219). -/
def failPass (e : ErrorRecord) (s : State) : State :=
  { s with pass := { s.pass with phase := .failed, err := some e } }

/-- A pass starts from the reset pass state (R190, R198) with no word lowered. -/
def beginPass (s : State) : State := { s with pass := PassState.reset, words := [] }

/-- A pass ends: the lowered words, which are stage 3's own, are gone (log 6). -/
def endPass (s : State) : State := { s with words := [] }

end Sys2Proof.Machine
end

