-- ==== Sys2Proof/Machine/ImmediateOps.lean ====
section
/-! DEFINITION. The six non-shift immediate operations (41_instruction_model.md R133, R140 to R145). Each lowers to
one I-format word, which it appends to the pass's words. The constants but those of ADDI are PRESUMED (93 G1, G3,
log 8). -/

namespace Sys2Proof.Machine

/-- ADDI (R140). -/
def execAddi (rd rs1 : RegId) (imm : Word) (s : State) : Host.Outcome State Fault Refusal :=
  .next (appendWord (encI 0b0010011#7 rd 0b000#3 rs1 imm) s)

/-- SLTI (R141). -/
def execSlti (rd rs1 : RegId) (imm : Word) (s : State) : Host.Outcome State Fault Refusal :=
  .next (appendWord (encI 0b0010011#7 rd 0b010#3 rs1 imm) s)

/-- SLTIU (R142). -/
def execSltiu (rd rs1 : RegId) (imm : Word) (s : State) : Host.Outcome State Fault Refusal :=
  .next (appendWord (encI 0b0010011#7 rd 0b011#3 rs1 imm) s)

/-- ANDI (R143). -/
def execAndi (rd rs1 : RegId) (imm : Word) (s : State) : Host.Outcome State Fault Refusal :=
  .next (appendWord (encI 0b0010011#7 rd 0b111#3 rs1 imm) s)

/-- ORI (R144). -/
def execOri (rd rs1 : RegId) (imm : Word) (s : State) : Host.Outcome State Fault Refusal :=
  .next (appendWord (encI 0b0010011#7 rd 0b110#3 rs1 imm) s)

/-- XORI (R145). -/
def execXori (rd rs1 : RegId) (imm : Word) (s : State) : Host.Outcome State Fault Refusal :=
  .next (appendWord (encI 0b0010011#7 rd 0b100#3 rs1 imm) s)

end Sys2Proof.Machine
end

