-- ==== Sys2Proof/Machine/RegisterOps.lean ====
section
/-! DEFINITION. The operations with no immediate operand: NOP, one constant I-format word, and ADD, one R-format word
(41_instruction_model.md R149, R150). -/

namespace Sys2Proof.Machine

/-- NOP (R149): the word of `addi x0, x0, 0` (PRESUMED, 93 G6, log 11). -/
def execNop (s : State) : Host.Outcome State Fault Refusal :=
  .next (appendWord (encI 0b0010011#7 0 0b000#3 0 0) s)

/-- ADD (R150). -/
def execAdd (rd rs1 rs2 : RegId) (s : State) : Host.Outcome State Fault Refusal :=
  .next (appendWord (encR 0b0110011#7 rd 0b000#3 rs1 rs2 0b0000000#7) s)

end Sys2Proof.Machine
end

