-- ==== Sys2Proof/Machine/ShiftOps.lean ====
section
/-! DEFINITION. The three shift operations (41_instruction_model.md R134, R146 to R148). The immediate they encode has
the operation's funct7 in bits 11:5 and the shift amount, the magnitude modulo 32, in bits 4:0. Their constants are
PRESUMED (93 G1 to G3, log 8). -/

namespace Sys2Proof.Machine

/-- `imm' = zext_32(f7 ++ imm[4:0])` (R134). -/
def shiftImm (funct7 : BitVec 7) (imm : Word) : Word := (funct7 ++ imm.extractLsb' 0 5).setWidth 32

/-- SLLI (R146). -/
def execSlli (rd rs1 : RegId) (imm : Word) (s : State) : Host.Outcome State Fault Refusal :=
  .next (appendWord (encI 0b0010011#7 rd 0b001#3 rs1 (shiftImm 0b0000000#7 imm)) s)

/-- SRLI (R147). -/
def execSrli (rd rs1 : RegId) (imm : Word) (s : State) : Host.Outcome State Fault Refusal :=
  .next (appendWord (encI 0b0010011#7 rd 0b101#3 rs1 (shiftImm 0b0000000#7 imm)) s)

/-- SRAI (R148). -/
def execSrai (rd rs1 : RegId) (imm : Word) (s : State) : Host.Outcome State Fault Refusal :=
  .next (appendWord (encI 0b0010011#7 rd 0b101#3 rs1 (shiftImm 0b0100000#7 imm)) s)

end Sys2Proof.Machine
end

