-- ==== Sys2Proof/Machine/Lowering.lean ====
section
/-! DEFINITION. Unit LU as its ports see it: the operation constant table and the general lowering
(41_instruction_model.md R130 to R135, R151), and the operation an element of `prog` stands for. The meanings of
Machine/ImmediateOps.lean, ShiftOps.lean and RegisterOps.lean say the same operation by operation. -/

namespace Sys2Proof.Machine

/-! ### Selectors (30_encoding.md R78) -/

/-- The operation and operands an element of `prog` stands for; selectors 11 to 15 have no mapping (R78). The
operands the operation's shape lacks are ignored (R135). -/
def instrOfOp (o : Op) : Option Instr :=
  match o.op.toNat with
  | 0 => some (.addi o.rd o.rs1 o.imm)
  | 1 => some (.slti o.rd o.rs1 o.imm)
  | 2 => some (.sltiu o.rd o.rs1 o.imm)
  | 3 => some (.andi o.rd o.rs1 o.imm)
  | 4 => some (.ori o.rd o.rs1 o.imm)
  | 5 => some (.xori o.rd o.rs1 o.imm)
  | 6 => some (.slli o.rd o.rs1 o.imm)
  | 7 => some (.srli o.rd o.rs1 o.imm)
  | 8 => some (.srai o.rd o.rs1 o.imm)
  | 9 => some .nop
  | 10 => some (.add o.rd o.rs1 o.rs2)
  | _ => none

/-- The element of `prog` for an operation, with the fields its statement does not give 0 (42_parser.md R172). -/
def opOfInstr : Instr → Op
  | .addi rd rs1 imm => ⟨0, rd, rs1, 0, imm⟩
  | .slti rd rs1 imm => ⟨1, rd, rs1, 0, imm⟩
  | .sltiu rd rs1 imm => ⟨2, rd, rs1, 0, imm⟩
  | .andi rd rs1 imm => ⟨3, rd, rs1, 0, imm⟩
  | .ori rd rs1 imm => ⟨4, rd, rs1, 0, imm⟩
  | .xori rd rs1 imm => ⟨5, rd, rs1, 0, imm⟩
  | .slli rd rs1 imm => ⟨6, rd, rs1, 0, imm⟩
  | .srli rd rs1 imm => ⟨7, rd, rs1, 0, imm⟩
  | .srai rd rs1 imm => ⟨8, rd, rs1, 0, imm⟩
  | .nop => ⟨9, 0, 0, 0, 0⟩
  | .add rd rs1 rs2 => ⟨10, rd, rs1, rs2, 0⟩

/-! ### The operation constant table (R130) -/

/-- How a row makes `rd'`, `rs1'` and `imm'` of R132. -/
inductive OperandShape where
  /-- (rd, rs1, imm), the immediate as given (R133) -/
  | immediate
  /-- (rd, rs1, imm), the immediate a shift amount under funct7 (R134) -/
  | shift
  /-- (), all three fixed to 0 (R149) -/
  | fixed
  /-- (rd, rs1, rs2) (R150) -/
  | registers
  deriving DecidableEq, Repr

/-- A row: opcode, funct3, funct7 (0 where the table says none, and then unused) and operand shape. The shape decides
the format: R for `registers`, I for the others. -/
structure OpRow where
  opcode : BitVec 7
  funct3 : BitVec 3
  funct7 : BitVec 7
  shape : OperandShape
  deriving DecidableEq, Repr

/-- The eleven rows in selector order (R130; the constants not marked §8 there are PRESUMED, log 8). -/
def opTable : List OpRow :=
  [ ⟨0b0010011, 0b000, 0, .immediate⟩,
    ⟨0b0010011, 0b010, 0, .immediate⟩,
    ⟨0b0010011, 0b011, 0, .immediate⟩,
    ⟨0b0010011, 0b111, 0, .immediate⟩,
    ⟨0b0010011, 0b110, 0, .immediate⟩,
    ⟨0b0010011, 0b100, 0, .immediate⟩,
    ⟨0b0010011, 0b001, 0b0000000, .shift⟩,
    ⟨0b0010011, 0b101, 0b0000000, .shift⟩,
    ⟨0b0010011, 0b101, 0b0100000, .shift⟩,
    ⟨0b0010011, 0b000, 0, .fixed⟩,
    ⟨0b0110011, 0b000, 0b0000000, .registers⟩ ]

/-- R132: build the row's record from its constants and the operands, and encode it. -/
def lowerRow (row : OpRow) (o : Op) : Word :=
  match row.shape with
  | .immediate => encI row.opcode o.rd row.funct3 o.rs1 o.imm
  | .shift => encI row.opcode o.rd row.funct3 o.rs1 (shiftImm row.funct7 o.imm)
  | .fixed => encI row.opcode 0 row.funct3 0 0
  | .registers => encR row.opcode o.rd row.funct3 o.rs1 o.rs2 row.funct7

structure LuOut where
  word : Word
  err : Option ErrorRecord
  deriving DecidableEq, Repr

/-- `Lower` (R132) on the ports of R131; a selector with no row gives `E_UNSUPPORTED` and word 0 (R151). -/
def lower (o : Op) : LuOut :=
  match opTable[o.op.toNat]? with
  | some row => ⟨lowerRow row o, none⟩
  | none => ⟨0, some (.unsupported o.op)⟩

end Sys2Proof.Machine
end

