-- ==== Sys2Proof/Machine/Operands.lean ====
section
/-! DEFINITION. The operand forms: register names (unit RIT, 10_state.md R20 to R24) and immediate literals
(42_parser.md R169), and the decimal numerals both use. -/

namespace Sys2Proof.Machine

/-- A text as the bytes of its ASCII characters. -/
def ascii (cs : List Char) : List Byte := cs.map fun c => BitVec.ofNat 8 c.toNat

/-! ### Numerals -/

def decDigit (d : Nat) : Byte := BitVec.ofNat 8 (0x30 + d)

/-- The decimal numeral of `n` with no leading zero, at most `fuel + 1` digits (ten are enough for 32 bits). -/
def decimal : Nat → Nat → List Byte
  | 0, n => [decDigit (n % 10)]
  | fuel + 1, n => if n < 10 then [decDigit n] else decimal fuel (n / 10) ++ [decDigit (n % 10)]

/-- The hex digit of value `d`, in upper or lower case (R162). -/
def hexDigit (upper : Bool) (d : Nat) : Byte :=
  (ascii (if upper then
      ['0', '1', '2', '3', '4', '5', '6', '7', '8', '9', 'A', 'B', 'C', 'D', 'E', 'F']
    else
      ['0', '1', '2', '3', '4', '5', '6', '7', '8', '9', 'a', 'b', 'c', 'd', 'e', 'f'])).getD d 0x30

/-- The hexadecimal numeral of `n` with no leading zero, at most `fuel + 1` digits (eight are enough for 32 bits). -/
def hexadecimal (upper : Bool) : Nat → Nat → List Byte
  | 0, n => [hexDigit upper (n % 16)]
  | fuel + 1, n =>
    if n < 16 then [hexDigit upper n] else hexadecimal upper fuel (n / 16) ++ [hexDigit upper (n % 16)]

/-- "0".."9" (R162). -/
def isDecDigit (c : Byte) : Bool := decide (0x30 ≤ c.toNat ∧ c.toNat ≤ 0x39)

/-- "0".."9" | "a".."f" | "A".."F" (R162). -/
def isHexDigit (c : Byte) : Bool :=
  isDecDigit c || decide (0x61 ≤ c.toNat ∧ c.toNat ≤ 0x66) || decide (0x41 ≤ c.toNat ∧ c.toNat ≤ 0x46)

/-- The value of a digit of either base. -/
def digitValue (c : Byte) : Nat :=
  if c.toNat ≤ 0x39 then c.toNat - 0x30 else if c.toNat ≤ 0x46 then c.toNat - 0x41 + 10 else c.toNat - 0x61 + 10

/-- The magnitude of a digit sequence in a base, most significant digit first. -/
def digitsValue (base : Nat) (ds : List Byte) : Nat := ds.foldl (fun m c => m * base + digitValue c) 0

/-! ### Registers -/

/-- `NameOf(id)`: the canonical name, `x` and the decimal numeral (R21, R23). -/
def nameOf (id : RegId) : List Byte := ascii ['x'] ++ decimal 1 id.toNat

/-- The 33 further names (R22). Their ids but those of sp, a0, a1, a2 are PRESUMED (93 G5, log 10). -/
def abiNames : List (List Byte × RegId) :=
  [ (ascii ['z', 'e', 'r', 'o'], 0), (ascii ['r', 'a'], 1), (ascii ['s', 'p'], 2), (ascii ['g', 'p'], 3),
    (ascii ['t', 'p'], 4), (ascii ['t', '0'], 5), (ascii ['t', '1'], 6), (ascii ['t', '2'], 7),
    (ascii ['s', '0'], 8), (ascii ['f', 'p'], 8), (ascii ['s', '1'], 9), (ascii ['a', '0'], 10),
    (ascii ['a', '1'], 11), (ascii ['a', '2'], 12), (ascii ['a', '3'], 13), (ascii ['a', '4'], 14),
    (ascii ['a', '5'], 15), (ascii ['a', '6'], 16), (ascii ['a', '7'], 17), (ascii ['s', '2'], 18),
    (ascii ['s', '3'], 19), (ascii ['s', '4'], 20), (ascii ['s', '5'], 21), (ascii ['s', '6'], 22),
    (ascii ['s', '7'], 23), (ascii ['s', '8'], 24), (ascii ['s', '9'], 25), (ascii ['s', '1', '0'], 26),
    (ascii ['s', '1', '1'], 27), (ascii ['t', '3'], 28), (ascii ['t', '4'], 29), (ascii ['t', '5'], 30),
    (ascii ['t', '6'], 31) ]

/-- The register identifier table: 65 names, 32 canonical and 33 ABI (R22). -/
def regNames : List (List Byte × RegId) :=
  ((List.range 32).map fun n => (nameOf (BitVec.ofNat 5 n), BitVec.ofNat 5 n)) ++ abiNames

/-- `RegOf(name)`, undefined outside the table; byte for byte, so lowercase only (R23, R167, R168). -/
def regOf (name : List Byte) : Option RegId := regNames.lookup name

/-! ### Immediates -/

/-- The magnitude a literal denotes: `0x` and one or more hex digits, or one or more decimal digits; no sign (R169). -/
def literalValue (tok : List Byte) : Option Nat :=
  if tok.take 2 = ascii ['0', 'x'] then
    if tok.drop 2 ≠ [] ∧ (tok.drop 2).all isHexDigit then some (digitsValue 16 (tok.drop 2)) else none
  else if tok ≠ [] ∧ tok.all isDecDigit then some (digitsValue 10 tok) else none

/-- What the parser passes of a magnitude: below 2^32 itself, else as `P_LITOVF` says (R169, D23). -/
def immOfMagnitude (p : LitOvf) (m : Nat) : Option Word :=
  if m < 2 ^ 32 then some (BitVec.ofNat 32 m)
  else match p with
    | .reduce => some (BitVec.ofNat 32 m)
    | .reject => none

/-- The immediate operand a token gives. -/
def immOf (p : LitOvf) (tok : List Byte) : Option Word := (literalValue tok).bind (immOfMagnitude p)

end Sys2Proof.Machine
end

