-- ==== Sys2Proof/Machine/Parser.lean ====
section
/-! DEFINITION. Unit MP, the mnemonic parser (42_parser.md R160 to R174): input bytes to a list of operations. A line is
cut into tokens at spaces, tabs and commas; since no mnemonic, register name or literal holds one of these, matching
token by token is the whole-line matching of R162 and R163. The grammar itself, as R162 writes it, is in
Machine/Grammar.lean. -/

namespace Sys2Proof.Machine

def newline : Byte := 0x0A
def comma : Byte := 0x2C

/-- The bytes of `ws`, `ows` and `trail` (R162): space or tab. -/
def isBlank (c : Byte) : Bool := c == 0x20 || c == 0x09

/-- What ends a token. -/
def isDelim (c : Byte) : Bool := isBlank c || c == comma

/-! ### Lines (R160) -/

/-- The pieces between newline bytes: n newlines give n + 1 pieces. -/
def pieces : List Byte → List (List Byte)
  | [] => [[]]
  | c :: cs =>
    if c = newline then [] :: pieces cs
    else match pieces cs with
      | [] => [[c]]
      | l :: ls => (c :: l) :: ls

/-- `Lines(b)`: the empty input has no line, and the empty piece after a last newline is none. -/
def linesOf (b : List Byte) : List (List Byte) :=
  if b = [] then []
  else if b.getLast? = some newline then (pieces b).dropLast
  else pieces b

/-! ### One line (R162 to R169) -/

/-- The mnemonics and their selectors (R162, R165). The spellings but addi, nop and add are PRESUMED (93 G4, log 9). -/
def mnemonics : List (List Byte × BitVec 4) :=
  [ (ascii ['a', 'd', 'd', 'i'], 0), (ascii ['s', 'l', 't', 'i'], 1), (ascii ['s', 'l', 't', 'i', 'u'], 2),
    (ascii ['a', 'n', 'd', 'i'], 3), (ascii ['o', 'r', 'i'], 4), (ascii ['x', 'o', 'r', 'i'], 5),
    (ascii ['s', 'l', 'l', 'i'], 6), (ascii ['s', 'r', 'l', 'i'], 7), (ascii ['s', 'r', 'a', 'i'], 8),
    (ascii ['n', 'o', 'p'], 9), (ascii ['a', 'd', 'd'], 10) ]

def selectorOf (name : List Byte) : Option (BitVec 4) := mnemonics.lookup name

/-- The bytes up to the first space, tab or comma. -/
def token (l : List Byte) : List Byte := l.takeWhile fun c => !isDelim c

/-- What stands after the token. -/
def afterToken (l : List Byte) : List Byte := l.dropWhile fun c => !isDelim c

/-- `ws`: one or more blanks. -/
def takeBlanks : List Byte → Option (List Byte)
  | c :: cs => if isBlank c then some (cs.dropWhile isBlank) else none
  | [] => none

/-- `"," ows`. -/
def takeComma : List Byte → Option (List Byte)
  | c :: cs => if c = comma then some (cs.dropWhile isBlank) else none
  | [] => none

/-- `reg`, and what follows it. -/
def takeReg (l : List Byte) : Option (RegId × List Byte) := (regOf (token l)).map fun r => (r, afterToken l)

/-- `trail`: nothing but blanks to the end of the line. -/
def isTrail (l : List Byte) : Bool := l.all isBlank

/-- The last operand of a statement: a register for `add`, an immediate for the others, then `trail`. -/
def parseLast (p : LitOvf) (op : BitVec 4) (rd rs1 : RegId) (l : List Byte) : Option Op :=
  if isTrail (afterToken l) then
    if op = 10 then (regOf (token l)).map fun rs2 => ⟨op, rd, rs1, rs2, 0⟩
    else (immOf p (token l)).map fun imm => ⟨op, rd, rs1, 0, imm⟩
  else none

/-- `ws reg "," ows reg "," ows` and the last operand (R162, R166). -/
def parseOperands (p : LitOvf) (op : BitVec 4) (l : List Byte) : Option Op :=
  (takeBlanks l).bind fun l1 =>
  (takeReg l1).bind fun (rd, l2) =>
  (takeComma l2).bind fun l3 =>
  (takeReg l3).bind fun (rs1, l4) =>
  (takeComma l4).bind fun l5 =>
  parseLast p op rd rs1 l5

/-- `Stmt(L)` where `L` is a line of the grammar, else none (R162, R172). -/
def parseLine (p : LitOvf) (l : List Byte) : Option Op :=
  (selectorOf (token l)).bind fun op =>
  if op = 9 then (if isTrail (afterToken l) then some ⟨9, 0, 0, 0, 0⟩ else none)
  else parseOperands p op (afterToken l)

/-! ### The whole input (R170, R172) -/

inductive ParseResult where
  | ok (prog : List Op)
  /-- `E_PARSE(k)` -/
  | fail (line : Nat)
  deriving DecidableEq, Repr

/-- The lines numbered from `k` on, in order; the first that fails names the failure. -/
def parseLines (p : LitOvf) (k : Nat) : List (List Byte) → ParseResult
  | [] => .ok []
  | l :: ls =>
    match parseLine p l with
    | none => .fail k
    | some o =>
      match parseLines p (k + 1) ls with
      | .ok os => .ok (o :: os)
      | .fail j => .fail j

/-- `Parse(b)` (R172). -/
def parse (p : LitOvf) (b : List Byte) : ParseResult := parseLines p 1 (linesOf b)

end Sys2Proof.Machine
end

