-- ==== Sys2Proof/Machine/Pass.lean ====
section
/-! DEFINITION. Units PS and BE: the four stages of a pass (43_pass_and_emitter.md R190 to R195), direct use of the
codec and lowering ports (R199), reset (70_reset_and_hazards.md R240), and what one request of the host does. -/

namespace Sys2Proof.Machine

/-! ### The stages (R190). A stage after a failure does nothing (60_exceptions.md R219). -/

/-- Stage 1: the whole input, or `E_IO_READ` (R191). -/
def readStage (input : List Byte) (rdFail : Bool) (s : State) : State :=
  if rdFail then failPass (.ioRead .read) s else { s with pass := { s.pass with inbuf := input } }

/-- Stage 2: parse every line (R172). -/
def parseStage (p : LitOvf) (s : State) : State :=
  if s.pass.phase = .failed then s
  else match parse p s.pass.inbuf with
    | .fail k => failPass (.parse k) s
    | .ok prog => { s with pass := { s.pass with prog := prog } }

/-- Stage 3 over a list of operations: each runs as `exec` says, and the first with no mapping fails the pass
(R190, R214). -/
def lowerAll : List Op → State → Host.Outcome State Fault Refusal
  | [], s => .next s
  | o :: os, s =>
    match instrOfOp o with
    | none => .next (failPass (.unsupported o.op) s)
    | some i => andThen (exec i s) (lowerAll os)

/-- Stage 3: lower every operation of `prog` in order. -/
def lowerStage (s : State) : Host.Outcome State Fault Refusal :=
  if s.pass.phase = .failed then .next s else lowerAll s.pass.prog s

/-- Stage 4: hand the bytes of the words to the host, all of them, or the first `j` and `E_IO_WRITE` (R193, R194). A
draw `j` beyond the `4N` bytes is read as `4N` (log 2). -/
def emitStage (wrFail : Option Nat) (s : State) : State :=
  if s.pass.phase = .failed then s
  else
    let bytes := bytesOfWords s.words
    match wrFail with
    | some j =>
      failPass (.ioWrite .write (min j bytes.length)) { s with pass := { s.pass with outbuf := bytes.take j } }
    | none => { s with pass := { s.pass with outbuf := bytes, phase := .done } }

/-- `Pass(host)` (R190), one atomic step (R241). -/
def runPass (p : LitOvf) (input : List Byte) (rdFail : Bool) (wrFail : Option Nat) (s : State) :
    Host.Outcome State Fault Refusal :=
  andThen (lowerStage (parseStage p (readStage input rdFail (beginPass s))))
    fun s3 => .next (endPass (emitStage wrFail s3))

/-! ### Requests -/

/-- What one action of the host does to the block. Driving a port changes that port and no pass state (R199); a reset
puts the pass state into its reset values and does nothing else (R240). -/
def runRequest (p : LitOvf) (r : Request) (s : State) : Host.Outcome State Fault Refusal :=
  match r with
  | .pass input rdFail wrFail => runPass p input rdFail wrFail s
  | .encode q => .next { s with encIn := q }
  | .decode q => .next { s with decIn := q }
  | .lower q => .next { s with luIn := q }
  | .reset => .next { s with pass := PassState.reset }

/-! ### What the host sees -/

/-- The encoder's outputs: a function of its present inputs (10_state.md R29). -/
def State.encOut (s : State) : EncOut := encodePorts s.encIn

/-- The decoder's outputs. -/
def State.decOut (s : State) : DecOut := decodePorts s.decIn

/-- The lowering unit's outputs. -/
def State.luOut (s : State) : LuOut := lower s.luIn

/-- The observation of a pass (43_pass_and_emitter.md R196). -/
def State.observation (s : State) : Phase × List Byte × Option ErrorRecord :=
  (s.pass.phase, s.pass.outbuf, s.pass.err)

end Sys2Proof.Machine
end

