-- ==== Sys2Proof/Machine/Spelling.lean ====
section
/-! DEFINITION. The canonical spelling of an operation (42_parser.md R174): the mnemonic, one space, the operands
separated by a comma and a space, registers by canonical name and immediates in decimal. -/

namespace Sys2Proof.Machine

def separator : List Byte := [comma, 0x20]

/-- An operation with a destination, a source and an immediate. -/
def spellImmForm (mnemonic : List Char) (rd rs1 : RegId) (imm : Word) : List Byte :=
  ascii mnemonic ++ [0x20] ++ nameOf rd ++ separator ++ nameOf rs1 ++ separator ++ decimal 9 imm.toNat

/-- The canonical spelling, with no newline. The immediate is the 32-bit magnitude (log 26). -/
def spell : Instr → List Byte
  | .addi rd rs1 imm => spellImmForm ['a', 'd', 'd', 'i'] rd rs1 imm
  | .slti rd rs1 imm => spellImmForm ['s', 'l', 't', 'i'] rd rs1 imm
  | .sltiu rd rs1 imm => spellImmForm ['s', 'l', 't', 'i', 'u'] rd rs1 imm
  | .andi rd rs1 imm => spellImmForm ['a', 'n', 'd', 'i'] rd rs1 imm
  | .ori rd rs1 imm => spellImmForm ['o', 'r', 'i'] rd rs1 imm
  | .xori rd rs1 imm => spellImmForm ['x', 'o', 'r', 'i'] rd rs1 imm
  | .slli rd rs1 imm => spellImmForm ['s', 'l', 'l', 'i'] rd rs1 imm
  | .srli rd rs1 imm => spellImmForm ['s', 'r', 'l', 'i'] rd rs1 imm
  | .srai rd rs1 imm => spellImmForm ['s', 'r', 'a', 'i'] rd rs1 imm
  | .nop => ascii ['n', 'o', 'p']
  | .add rd rs1 rs2 =>
    ascii ['a', 'd', 'd'] ++ [0x20] ++ nameOf rd ++ separator ++ nameOf rs1 ++ separator ++ nameOf rs2

end Sys2Proof.Machine
end

