-- ==== Sys2Proof/Machine/Step.lean ====
section
/-! DEFINITION. One step: the host's next request. -/

namespace Sys2Proof.Machine

/-- Take the first request and do it; with none, the block does nothing (log 19). -/
def step (s : State) : Host.Outcome State Fault Refusal :=
  match s.requests with
  | [] => .next s
  | r :: rs => runRequest Config.litOvf r { s with requests := rs }

/-- The source text that holds the operation a table word names, as its canonical spelling (R174); a word that names
none gives an empty line, which no statement matches (log 5). -/
def textOfTableWord (nbits w : Nat) : List Byte :=
  match decodeTableWord nbits w with
  | some i => spell i ++ [newline]
  | none => [newline]

/-- The block fetches no words (20_memory.md R54): its program is the text of a pass. So the operation stands where
the next step takes it when the host's next request is a pass over its text, with no I/O failure (log 5). -/
def State.withFetchWord (s : State) (nbits w : Nat) : State :=
  { s with requests := .pass (textOfTableWord nbits w) false none :: s.requests }

end Sys2Proof.Machine
end

