-- ==== Sys2Proof/Machine/Flags.lean ====
section
/-! DEFINITION. The block has no flags, condition codes or predicates (10_state.md R27): the one status a unit gives
is its error, and this file gives the errors their codes (60_exceptions.md R210). -/

namespace Sys2Proof.Machine

/-- The numeric code of an error port or of `err` (R210; `none` is `E_NONE`). -/
def errorCode : Option ErrorRecord → Nat
  | none => 0
  | some (.ioRead _) => 1
  | some (.ioWrite _ _) => 2
  | some (.parse _) => 3
  | some (.unsupported _) => 4
  | some (.fmt _) => 5

end Sys2Proof.Machine
end

