-- ==== Sys2Proof/Machine/Grammar.lean ====
section
/-! DEFINITION. The grammar of one line as 42_parser.md R162 writes it: which byte strings are a line, and the statement
each one gives (R165, R166, R168, R169). It says what `parseLine` must accept, and is not run. -/

namespace Sys2Proof.Machine

/-- `{ " " | "\t" }`: `ows` and `trail`. -/
def Blanks (l : List Byte) : Prop := ∀ c ∈ l, c = 0x20 ∨ c = 0x09

/-- `decdigit { decdigit }` or `"0x" hexdigit { hexdigit }`, with the magnitude it denotes. -/
inductive Literal : List Byte → Nat → Prop where
  | decimal (ds : List Byte) : ds ≠ [] → (∀ c ∈ ds, isDecDigit c = true) → Literal ds (digitsValue 10 ds)
  | hex (hs : List Byte) : hs ≠ [] → (∀ c ∈ hs, isHexDigit c = true) →
      Literal (ascii ['0', 'x'] ++ hs) (digitsValue 16 hs)

/-- `ws reg "," ows reg "," ows`: the part the two operand statements share. -/
inductive TwoRegs : List Byte → RegId → RegId → Prop where
  | mk (ws n1 ows1 n2 ows2 : List Byte) (rd rs1 : RegId) :
      ws ≠ [] → Blanks ws → (n1, rd) ∈ regNames → Blanks ows1 → (n2, rs1) ∈ regNames → Blanks ows2 →
      TwoRegs (ws ++ n1 ++ [comma] ++ ows1 ++ n2 ++ [comma] ++ ows2) rd rs1

/-- `statement`, with the element of `prog` it gives. -/
inductive Statement (p : LitOvf) : List Byte → Op → Prop where
  | immediate (mn regs lit : List Byte) (op : BitVec 4) (rd rs1 : RegId) (m : Nat) (imm : Word) :
      (mn, op) ∈ mnemonics → op.toNat ≤ 8 → TwoRegs regs rd rs1 → Literal lit m → immOfMagnitude p m = some imm →
      Statement p (mn ++ regs ++ lit) ⟨op, rd, rs1, 0, imm⟩
  | add (regs n3 : List Byte) (rd rs1 rs2 : RegId) :
      TwoRegs regs rd rs1 → (n3, rs2) ∈ regNames →
      Statement p (ascii ['a', 'd', 'd'] ++ regs ++ n3) ⟨10, rd, rs1, rs2, 0⟩
  | nop : Statement p (ascii ['n', 'o', 'p']) ⟨9, 0, 0, 0, 0⟩

/-- `line := statement trail`, matched from the first byte to the last. -/
def IsLine (p : LitOvf) (l : List Byte) (o : Op) : Prop :=
  ∃ body trail, l = body ++ trail ∧ Blanks trail ∧ Statement p body o

end Sys2Proof.Machine
end

