-- ==== Sys2Proof/Safety.lean ====
section
/-! DEFINITION. What may be relied on between steps: the pass state is the reset one or the record of a whole pass. -/

namespace Sys2Proof.Machine

/-- The words the operations of `prog` lower to. -/
def loweredWords (prog : List Op) : List Word := prog.map fun o => (lower o).word

/-- The output a pass over `prog` intends: its words' bytes in line order (43_pass_and_emitter.md R190, stage 4). -/
def intendedOutput (prog : List Op) : List Byte := bytesOfWords (loweredWords prog)

/-- The pass state that `Pass(host)` returns, read straight off 43_pass_and_emitter.md R190 with each stage's failure in
stage order (R218), and the words of stage 3 taken from the general lowering (R132). The draw `j` is a legal one,
`0 ≤ j ≤ 4N` (R194). -/
def specPass (p : LitOvf) (input : List Byte) (rdFail : Bool) (wrFail : Option Nat) : PassState :=
  if rdFail then ⟨.failed, [], [], [], some (.ioRead .read)⟩
  else match parse p input with
    | .fail k => ⟨.failed, input, [], [], some (.parse k)⟩
    | .ok prog =>
      match prog.find? fun o => (lower o).err.isSome with
      | some o => ⟨.failed, input, prog, [], some (.unsupported o.op)⟩
      | none =>
        match wrFail with
        | some j => ⟨.failed, input, prog, (intendedOutput prog).take j, some (.ioWrite .write j)⟩
        | none => ⟨.done, input, prog, intendedOutput prog, none⟩

/-- The draws of 43_pass_and_emitter.md R194: a write failure comes after at most the `4N` bytes of the pass. -/
def WriteDrawLegal (p : LitOvf) (input : List Byte) (wrFail : Option Nat) : Prop :=
  ∀ j prog, wrFail = some j → parse p input = .ok prog → j ≤ 4 * prog.length

/-- A pass state that a pass leaves, or the reset one. Idle: all reset (R31). Done: no error, the input parsed, and
exactly its words' bytes handed over (R193). Failed: one error of R211 to R213 with what its stage leaves; neither
`E_UNSUPPORTED` nor `E_FMT`, which no pass raises (R151, R215). -/
def PassConsistent (p : LitOvf) (s : PassState) : Prop :=
  match s.phase with
  | .idle => s = PassState.reset
  | .done => s.err = none ∧ parse p s.inbuf = .ok s.prog ∧ s.outbuf = intendedOutput s.prog
  | .failed =>
    match s.err with
    | none => False
    | some (.ioRead op) => op = .read ∧ s.inbuf = [] ∧ s.prog = [] ∧ s.outbuf = []
    | some (.parse k) => parse p s.inbuf = .fail k ∧ s.prog = [] ∧ s.outbuf = []
    | some (.ioWrite op j) =>
      op = .write ∧ parse p s.inbuf = .ok s.prog ∧ j ≤ 4 * s.prog.length ∧
        s.outbuf = (intendedOutput s.prog).take j
    | some (.unsupported _) => False
    | some (.fmt _) => False

/-- The invariant of every step: a consistent pass state, and no word left of stage 3. -/
def State.Inv (s : State) : Prop := PassConsistent Config.litOvf s.pass ∧ s.words = []

/-- "A consumer must not use `outbuf` when `phase = Failed`" (R196, R244): the output is the whole program exactly
when a pass is done. -/
def State.outputUsable (s : State) : Bool := decide (s.pass.phase = .done)

end Sys2Proof.Machine
end

