-- ==== Sys2Proof/WellFormed.lean ====
section
/-! DEFINITION. When an operation is the one its word names: nothing of its operands is dropped by the encoding, and
it is not the second name of the `nop` word. An operation that is not well formed still runs: its lowering truncates
(40_format_codec.md R101, 41_instruction_model.md R134). -/

namespace Sys2Proof

/-- The immediate domain of the I format, read as signed (30_encoding.md R72). -/
def immInDomainI (imm : Word) : Bool := decide (-2048 ≤ imm.toInt ∧ imm.toInt ≤ 2047)

/-- The shift amounts that are stored whole (41_instruction_model.md R134, R146: 31 is the largest stored). -/
def shamtInDomain (imm : Word) : Bool := decide (imm.toNat < 32)

/-- `addi x0, x0, 0` has the word of `nop`, and a decoder that must name one prefers `nop` (30_encoding.md R75). -/
def isNopSpelling (rd rs1 : RegId) (imm : Word) : Bool := rd == 0 && rs1 == 0 && imm == 0

def Instr.wf : Instr → Bool
  | .addi rd rs1 imm => immInDomainI imm && !isNopSpelling rd rs1 imm
  | .slti _ _ imm => immInDomainI imm
  | .sltiu _ _ imm => immInDomainI imm
  | .andi _ _ imm => immInDomainI imm
  | .ori _ _ imm => immInDomainI imm
  | .xori _ _ imm => immInDomainI imm
  | .slli _ _ imm => shamtInDomain imm
  | .srli _ _ imm => shamtInDomain imm
  | .srai _ _ imm => shamtInDomain imm
  | .nop => true
  | .add _ _ _ => true

end Sys2Proof
end

