-- ==== Sys2Proof/Certificates/Slice0/Obligations.lean ====
section
/-! DEFINITION. The statements for the provers. Each docstring names the rules of spec/ it comes from. `v.extractLsb' lo n`
is the spec's `v[lo+n-1:lo]`. -/

open Sys2Proof Sys2Proof.Machine

/-! ### Reset and the host interface -/

/-- The reset pass state of R31, from which a pass begins, and which a reset request writes and nothing else (R240). These
values are the spec's own choice (D28, log 21). -/
def Obligations.ResetWritesThePassStateAndNothingElse : Prop :=
  State.reset.pass = ⟨.idle, [], [], [], none⟩ ∧
  (∀ s, (beginPass s).pass = ⟨.idle, [], [], [], none⟩) ∧
  ∀ s rs, s.requests = .reset :: rs →
    step s = .next { s with pass := ⟨.idle, [], [], [], none⟩, requests := rs }

/-- R199, with the outputs of R100 and R131: direct use drives one port, reads and writes no pass state, and the outputs
are the units' functions of the inputs. That inputs stay driven, and that a block asked for nothing does nothing, are
the model's choices (log 7, log 19). -/
def Obligations.DirectUseDrivesOnePortAndNoPassState : Prop :=
  (∀ s rs p, s.requests = .encode p :: rs →
    ∃ t, step s = .next t ∧ t = { s with encIn := p, requests := rs } ∧ t.encOut = encodePorts p) ∧
  (∀ s rs p, s.requests = .decode p :: rs →
    ∃ t, step s = .next t ∧ t = { s with decIn := p, requests := rs } ∧ t.decOut = decodePorts p) ∧
  (∀ s rs o, s.requests = .lower o :: rs →
    ∃ t, step s = .next t ∧ t = { s with luIn := o, requests := rs } ∧ t.luOut = lower o) ∧
  ∀ s, s.requests = [] → step s = .next s

/-- R221: no error is a missing step. Every state has a next one, and a pass with an error record, and no other, ends in
`Failed`. That a state with no request, and a pass with a draw R194 does not allow, have a next state too is the model's
choice (log 19, log 2), and that nothing stops is its reading of R221 (log 22). -/
def Obligations.EveryErrorIsAFinalStateAndNoMissingStep : Prop :=
  ∀ s, ∃ t, step s = .next t ∧
    ∀ rs input rdFail wrFail, s.requests = .pass input rdFail wrFail :: rs → WriteDrawLegal Config.litOvf input wrFail →
      (t.pass.err.isSome ↔ t.pass.phase = .failed)

/-- R219: an error sets `err` and `phase` and nothing else, and no stage after it does anything: nothing is read, parsed,
lowered or emitted. -/
def Obligations.AnErrorEndsThePassAndWritesNothingElse : Prop :=
  ∀ (e : ErrorRecord) (s : State) (p : LitOvf) (wrFail : Option Nat),
    ∃ t, failPass e s = t ∧ t = { s with pass := { s.pass with phase := .failed, err := some e } } ∧
      parseStage p t = t ∧ lowerStage t = .next t ∧ emitStage wrFail t = t

/-! ### Format codec -/

/-- R102, R103, R104: the words of the R, I and S formats. -/
def Obligations.EncodeLaysOutTheRAndIAndSFormats : Prop :=
  (∀ opcode rd funct3 rs1 rs2 funct7,
    encodeRecord (.r opcode rd funct3 rs1 rs2 funct7) = funct7 ++ rs2 ++ rs1 ++ funct3 ++ rd ++ opcode) ∧
  (∀ opcode rd funct3 rs1 imm,
    encodeRecord (.i opcode rd funct3 rs1 imm) = imm.extractLsb' 0 12 ++ rs1 ++ funct3 ++ rd ++ opcode) ∧
  ∀ opcode funct3 rs1 rs2 imm,
    encodeRecord (.s opcode funct3 rs1 rs2 imm) =
      imm.extractLsb' 5 7 ++ rs2 ++ rs1 ++ funct3 ++ imm.extractLsb' 0 5 ++ opcode

/-- R100, R102 to R107: the encoder's ports, format by format. An input the format lacks does not occur in the word. The
selector numbers are the spec's own (D6), and so are the dropped bit 0 of an SB or UJ immediate (D11) and the
positioned U immediate (D12). -/
def Obligations.EncoderPortsLayOutEachFormat : Prop :=
  ∀ p : EncIn,
    (p.fmt = 0 → encodePorts p = ⟨p.funct7 ++ p.rs2 ++ p.rs1 ++ p.funct3 ++ p.rd ++ p.opcode, none⟩) ∧
    (p.fmt = 1 → encodePorts p = ⟨p.imm.extractLsb' 0 12 ++ p.rs1 ++ p.funct3 ++ p.rd ++ p.opcode, none⟩) ∧
    (p.fmt = 2 → encodePorts p =
      ⟨p.imm.extractLsb' 5 7 ++ p.rs2 ++ p.rs1 ++ p.funct3 ++ p.imm.extractLsb' 0 5 ++ p.opcode, none⟩) ∧
    (p.fmt = 3 → encodePorts p =
      ⟨p.imm.extractLsb' 12 1 ++ p.imm.extractLsb' 5 6 ++ p.rs2 ++ p.rs1 ++ p.funct3 ++ p.imm.extractLsb' 1 4 ++
        p.imm.extractLsb' 11 1 ++ p.opcode, none⟩) ∧
    (p.fmt = 4 → encodePorts p = ⟨p.imm.extractLsb' 12 20 ++ p.rd ++ p.opcode, none⟩) ∧
    (p.fmt = 5 → encodePorts p =
      ⟨p.imm.extractLsb' 20 1 ++ p.imm.extractLsb' 1 10 ++ p.imm.extractLsb' 11 1 ++ p.imm.extractLsb' 12 8 ++ p.rd ++
        p.opcode, none⟩)

/-- R108 to R113: the record decode returns, format by format. -/
def Obligations.DecodeReturnsTheRecordOfEachFormat : Prop :=
  ∀ w : Word,
    decodeRecord .r w = .r (w.extractLsb' 0 7) (w.extractLsb' 7 5) (w.extractLsb' 12 3) (w.extractLsb' 15 5)
      (w.extractLsb' 20 5) (w.extractLsb' 25 7) ∧
    decodeRecord .i w = .i (w.extractLsb' 0 7) (w.extractLsb' 7 5) (w.extractLsb' 12 3) (w.extractLsb' 15 5)
      (w.sshiftRight 20) ∧
    decodeRecord .s w = .s (w.extractLsb' 0 7) (w.extractLsb' 12 3) (w.extractLsb' 15 5) (w.extractLsb' 20 5)
      ((w.extractLsb' 25 7 ++ w.extractLsb' 7 5).signExtend 32) ∧
    decodeRecord .sb w = .sb (w.extractLsb' 0 7) (w.extractLsb' 12 3) (w.extractLsb' 15 5) (w.extractLsb' 20 5)
      ((w.extractLsb' 31 1 ++ w.extractLsb' 7 1 ++ w.extractLsb' 25 6 ++ w.extractLsb' 8 4 ++ 0#1).signExtend 32) ∧
    decodeRecord .u w = .u (w.extractLsb' 0 7) (w.extractLsb' 7 5) (w &&& 0xFFFFF000#32) ∧
    decodeRecord .uj w = .uj (w.extractLsb' 0 7) (w.extractLsb' 7 5)
      ((w.extractLsb' 31 1 ++ w.extractLsb' 12 8 ++ w.extractLsb' 20 1 ++ w.extractLsb' 21 10 ++ 0#1).signExtend 32)

/-- R100, R62: whatever the format, the decoder drives each shared field from its fixed bits, and `dec_imm` is the record's
immediate, 0 for R. The outputs a format lacks are the spec's own wiring and no part of the record (D4); the selector
numbers are its own too (D6). -/
def Obligations.DecoderPortsDriveSharedFieldsInEveryFormat : Prop :=
  ∀ p : DecIn, p.fmt.toNat ≤ 5 → ∃ f, formatOfSelector p.fmt = some f ∧
    decodePorts p =
      { opcode := p.word.extractLsb' 0 7, rd := p.word.extractLsb' 7 5, funct3 := p.word.extractLsb' 12 3,
        rs1 := p.word.extractLsb' 15 5, rs2 := p.word.extractLsb' 20 5, funct7 := p.word.extractLsb' 25 7,
        imm := (decodeRecord f p.word).imm, err := none } ∧
    (p.fmt = 0 → (decodePorts p).imm = 0)

/-- R62, R63: encode puts every shared field a format has at its fixed word bits. Which fields a format has is the spec's
own reading (D9). -/
def Obligations.EncodeKeepsSharedFieldsAtTheirBits : Prop :=
  (∀ opcode rd funct3 rs1 rs2 funct7, let w := encodeRecord (.r opcode rd funct3 rs1 rs2 funct7)
    w.extractLsb' 0 7 = opcode ∧ w.extractLsb' 7 5 = rd ∧ w.extractLsb' 12 3 = funct3 ∧ w.extractLsb' 15 5 = rs1 ∧
      w.extractLsb' 20 5 = rs2 ∧ w.extractLsb' 25 7 = funct7) ∧
  (∀ opcode rd funct3 rs1 imm, let w := encodeRecord (.i opcode rd funct3 rs1 imm)
    w.extractLsb' 0 7 = opcode ∧ w.extractLsb' 7 5 = rd ∧ w.extractLsb' 12 3 = funct3 ∧ w.extractLsb' 15 5 = rs1) ∧
  (∀ opcode funct3 rs1 rs2 imm, let w := encodeRecord (.s opcode funct3 rs1 rs2 imm)
    w.extractLsb' 0 7 = opcode ∧ w.extractLsb' 12 3 = funct3 ∧ w.extractLsb' 15 5 = rs1 ∧ w.extractLsb' 20 5 = rs2) ∧
  (∀ opcode funct3 rs1 rs2 imm, let w := encodeRecord (.sb opcode funct3 rs1 rs2 imm)
    w.extractLsb' 0 7 = opcode ∧ w.extractLsb' 12 3 = funct3 ∧ w.extractLsb' 15 5 = rs1 ∧ w.extractLsb' 20 5 = rs2) ∧
  (∀ opcode rd imm, let w := encodeRecord (.u opcode rd imm)
    w.extractLsb' 0 7 = opcode ∧ w.extractLsb' 7 5 = rd) ∧
  (∀ opcode rd imm, let w := encodeRecord (.uj opcode rd imm)
    w.extractLsb' 0 7 = opcode ∧ w.extractLsb' 7 5 = rd)

/-- R70, which the spec derives from its layouts. A bit mapped to `word[n]` is stored there and read back from there; a `z`
bit decodes to 0 and an `s` bit to the format's sign bit; and the word depends on no bit that the table does not store. -/
def Obligations.ScatterTableGovernsEveryImmediateBit : Prop :=
  (∀ rec i n, i < 32 → scatter rec.format i = .word n → (encodeRecord rec).getLsbD n = rec.imm.getLsbD i) ∧
  (∀ rec v, (∀ i n, i < 32 → scatter rec.format i = .word n → v.getLsbD i = rec.imm.getLsbD i) →
    encodeRecord (rec.withImm v) = encodeRecord rec) ∧
  (∀ f w i, i < 32 → (decodeRecord f w).imm.getLsbD i =
    match scatter f i with
    | .word n => w.getLsbD n
    | .zero => false
    | .sign => (decodeRecord f w).imm.getLsbD (signBit f))

/-- R116, with the domain of R72 and `Canon_F` of R73, which the spec derives: decode after encode gives the record back, with
its immediate made canonical; in the domain, unchanged. -/
def Obligations.DecodeAfterEncodeGivesTheRecord : Prop :=
  ∀ rec : FormatRecord,
    decodeRecord rec.format (encodeRecord rec) = rec.withImm (canonImm rec.format rec.imm) ∧
    (immDomain rec.format rec.imm → decodeRecord rec.format (encodeRecord rec) = rec)

/-- R117, which the spec derives for every word from R63: encode after decode gives every word back in every format. -/
def Obligations.EncodeAfterDecodeGivesTheWord : Prop :=
  ∀ (f : Format) (w : Word), encodeRecord (decodeRecord f w) = w

/-- R72, R73, both derived by the spec: an immediate is its own canonical one exactly in the format's domain, and every
decoded one lies there. -/
def Obligations.CanonicalImmediatesAreExactlyTheDomain : Prop :=
  (∀ f v, canonImm f v = v ↔ immDomain f v) ∧ ∀ f w, immDomain f (decodeRecord f w).imm

/-- R118, derived by the spec: word bit 31 is the sign of the decoded immediate, and re-encoding reproduces the pattern. -/
def Obligations.WordBit31IsTheSignOfTheImmediate : Prop :=
  ∀ f w, f ≠ .r →
    ((decodeRecord f w).imm.toInt < 0 ↔ w.getLsbD 31 = true) ∧ encodeRecord (decodeRecord f w) = w

/-- R119, derived by the spec: decoded SB and UJ immediates are even, and a decoded U immediate has its low 12 bits 0. -/
def Obligations.DecodedOffsetsAreEvenAndUpperImmediatesAligned : Prop :=
  ∀ w, (decodeRecord .sb w).imm.toInt % 2 = 0 ∧ (decodeRecord .uj w).imm.toInt % 2 = 0 ∧
    (decodeRecord .u w).imm.extractLsb' 0 12 = 0

/-- R120, derived by the spec: one immediate bit alone encodes to one word bit alone, and decodes back, the sign bit to its
negative. -/
def Obligations.EachStoredImmediateBitIsIndependent : Prop :=
  ∀ f i n, i < 32 → scatter f i = .word n →
    encodeRecord ((zeroRecord f).withImm (1#32 <<< i)) = 1#32 <<< n ∧
    decodeRecord f (1#32 <<< n) =
      (zeroRecord f).withImm (if i = signBit f then -(1#32 <<< i) else 1#32 <<< i)

/-- R114, R115, R216: a reserved selector gives `E_FMT`, its payload and zero outputs; no other input gives an error; and the
lowering never gives `E_FMT`. The selectors and their error are the spec's own choice (D6, log 23). -/
def Obligations.OnlyReservedFormatSelectorsFail : Prop :=
  (∀ p : EncIn, 6 ≤ p.fmt.toNat → encodePorts p = ⟨0, some (.fmt p.fmt)⟩) ∧
  (∀ p : DecIn, 6 ≤ p.fmt.toNat → decodePorts p = ⟨0, 0, 0, 0, 0, 0, 0, some (.fmt p.fmt)⟩) ∧
  (∀ p : EncIn, p.fmt.toNat ≤ 5 → (encodePorts p).err = none) ∧
  (∀ p : DecIn, p.fmt.toNat ≤ 5 → (decodePorts p).err = none) ∧
  ∀ o sel, (lower o).err ≠ some (.fmt sel)

/-! ### The eleven operations: what each completes with, and its frame (everything but the word list is unchanged) -/

/-- R140, R150: the two operations whose constants the source gives. -/
def Obligations.AddiAndAddAppendTheirWord : Prop :=
  (∀ (rd rs1 : RegId) (imm : Word) (s : State),
    exec (.addi rd rs1 imm) s =
      .next { s with words := s.words ++ [imm.extractLsb' 0 12 ++ rs1 ++ 0b000#3 ++ rd ++ 0b0010011#7] }) ∧
  ∀ (rd rs1 rs2 : RegId) (s : State),
    exec (.add rd rs1 rs2) s =
      .next { s with words := s.words ++ [0b0000000#7 ++ rs2 ++ rs1 ++ 0b000#3 ++ rd ++ 0b0110011#7] }

/-- R141 to R145. The constants are the spec's from general knowledge (D14, log 8). -/
def Obligations.ImmediateOperationsAppendTheirWord : Prop :=
  ∀ (rd rs1 : RegId) (imm : Word) (s : State),
    exec (.slti rd rs1 imm) s =
      .next { s with words := s.words ++ [imm.extractLsb' 0 12 ++ rs1 ++ 0b010#3 ++ rd ++ 0b0010011#7] } ∧
    exec (.sltiu rd rs1 imm) s =
      .next { s with words := s.words ++ [imm.extractLsb' 0 12 ++ rs1 ++ 0b011#3 ++ rd ++ 0b0010011#7] } ∧
    exec (.andi rd rs1 imm) s =
      .next { s with words := s.words ++ [imm.extractLsb' 0 12 ++ rs1 ++ 0b111#3 ++ rd ++ 0b0010011#7] } ∧
    exec (.ori rd rs1 imm) s =
      .next { s with words := s.words ++ [imm.extractLsb' 0 12 ++ rs1 ++ 0b110#3 ++ rd ++ 0b0010011#7] } ∧
    exec (.xori rd rs1 imm) s =
      .next { s with words := s.words ++ [imm.extractLsb' 0 12 ++ rs1 ++ 0b100#3 ++ rd ++ 0b0010011#7] }

/-- R134, R146 to R148: the shift amount is the magnitude modulo 32, funct7 is the operation's own whatever the magnitude,
and the word is the R-format word with `rs2` the shift amount. Layout and constants are the spec's own (D13, D14,
log 8, log 13). -/
def Obligations.ShiftOperationsAppendTheirWord : Prop :=
  ∀ (rd rs1 : RegId) (imm : Word) (s : State),
    exec (.slli rd rs1 imm) s =
      .next { s with words := s.words ++ [encR 0b0010011 rd 0b001 rs1 (BitVec.ofNat 5 (imm.toNat % 32)) 0b0000000] } ∧
    exec (.srli rd rs1 imm) s =
      .next { s with words := s.words ++ [encR 0b0010011 rd 0b101 rs1 (BitVec.ofNat 5 (imm.toNat % 32)) 0b0000000] } ∧
    exec (.srai rd rs1 imm) s =
      .next { s with words := s.words ++ [encR 0b0010011 rd 0b101 rs1 (BitVec.ofNat 5 (imm.toNat % 32)) 0b0100000] }

/-- R149: `nop` completes and appends one constant word. Its literal is the spec's own choice (D15, log 11). -/
def Obligations.NopAppendsItsWord : Prop :=
  ∀ s, exec .nop s = .next { s with words := s.words ++ [0x00000013#32] }

/-- The opcode table's encoding column (R74): every operation completes in every state and appends the word the table gives
it, and changes nothing else. The constants (D14, D15, log 8, log 11) and the shift amount modulo 32 of a larger
magnitude (D13, log 13) are the spec's own. -/
def Obligations.EveryOperationAppendsItsTableWord : Prop :=
  ∀ (i : Instr) (s : State), exec i s = .next { s with words := s.words ++ [encode i] }

/-! ### Lowering unit -/

/-- R132 against R140 to R150: the general, table-driven lowering on the ports gives the word of the operation's own rule, and
no error. The selectors are the spec's own (D7). -/
def Obligations.GeneralLoweringAgreesWithEachOperation : Prop :=
  ∀ (o : Op) (i : Instr) (s : State), instrOfOp o = some i →
    exec i s = .next { s with words := s.words ++ [(lower o).word] } ∧ (lower o).err = none

/-- R151, R165: selectors 11 to 15 give `E_UNSUPPORTED` with the selector and word 0, no other selector an error, and the
parser produces none of them. The selectors and the payload are the spec's own (D7, D24, log 16, log 23). -/
def Obligations.OnlyUnmappedSelectorsAreUnsupported : Prop :=
  (∀ o : Op, 11 ≤ o.op.toNat → lower o = ⟨0, some (.unsupported o.op)⟩ ∧ instrOfOp o = none) ∧
  (∀ o : Op, o.op.toNat ≤ 10 → (lower o).err = none ∧ (instrOfOp o).isSome) ∧
  ∀ p l o, parseLine p l = some o → o.op.toNat ≤ 10

/-- R135, derived by the spec: the immediate operations ignore `lu_rs2`, `nop` everything, `add` `lu_imm`. -/
def Obligations.IgnoredInputsDoNotReachTheWord : Prop :=
  ∀ a b : Op, a.op = b.op →
    (a.op.toNat ≤ 8 → a.rd = b.rd → a.rs1 = b.rs1 → a.imm = b.imm → lower a = lower b) ∧
    (a.op = 9 → lower a = lower b) ∧
    (a.op = 10 → a.rd = b.rd → a.rs1 = b.rs1 → a.rs2 = b.rs2 → lower a = lower b)

/-- R133, derived by the spec: the word's immediate is the magnitude modulo 4096, read as signed; magnitudes 2048 to 4095
become negative. -/
def Obligations.MagnitudesAreReinterpretedAsSigned : Prop :=
  ∀ (o : Op) (m : Nat), o.op.toNat ≤ 5 → o.imm = BitVec.ofNat 32 m →
    (decodeRecord .i (lower o).word).imm.toInt =
      if m % 4096 < 2048 then (m % 4096 : Int) else (m % 4096 : Int) - 4096

/-- R244, derived by the spec: 0 is not a word of any of the eleven operations. -/
def Obligations.NoOperationLowersToZero : Prop :=
  ∀ o : Op, (lower o).err = none → (lower o).word ≠ 0

/-! ### The opcode table -/

/-- Words written out from the encoding column, those of the examples of R140 to R150. The decoder is the model's (log 4). -/
def Obligations.TableWordsDecodeToTheirOperation : Prop :=
  decodeTableWord 32 0b00000000010100000000000010010011 = some (.addi 1 0 5) ∧
  decodeTableWord 32 0b00000110010000110010001010010011 = some (.slti 5 6 100) ∧
  decodeTableWord 32 0b01000001111100010101000010010011 = some (.srai 1 2 31) ∧
  decodeTableWord 32 0b00000000000000000000000000010011 = some .nop ∧
  decodeTableWord 32 0b00000000110001011000010100110011 = some (.add 10 11 12)

/-- Decoding the encoding of a well-formed operation gives it back, with every operand at every value. The decoder is the
model's, over the opcode table (log 4). -/
def Obligations.DecodeEncodeGivesTheOperation : Prop :=
  ∀ i : Instr, i.wf = true → decodeWord (encode i) = .instr i ∧ decodeTableWord 32 (encode i).toNat = some i

/-- What the table decoder reads is well formed, and its encoding is the word read (log 4). -/
def Obligations.EncodeDecodeGivesTheWord : Prop :=
  ∀ (w : Word) (i : Instr), decodeWord w = .instr i → encode i = w ∧ i.wf = true

/-! ### Register names and literals -/

/-- R21 to R23: `RegOf` is defined exactly on the canonical names, `x` and the decimal numeral, and on the ABI names, with
the ids of R22 row by row. Spelling and most ABI ids are the spec's own (D18, D21, G5, log 10). -/
def Obligations.RegOfIsDefinedExactlyOnTheNames : Prop :=
  let abi : List (String × RegId) :=
    [("zero", 0), ("ra", 1), ("sp", 2), ("gp", 3), ("tp", 4), ("t0", 5), ("t1", 6), ("t2", 7), ("s0", 8), ("fp", 8),
     ("s1", 9), ("a0", 10), ("a1", 11), ("a2", 12), ("a3", 13), ("a4", 14), ("a5", 15), ("a6", 16), ("a7", 17),
     ("s2", 18), ("s3", 19), ("s4", 20), ("s5", 21), ("s6", 22), ("s7", 23), ("s8", 24), ("s9", 25), ("s10", 26),
     ("s11", 27), ("t3", 28), ("t4", 29), ("t5", 30), ("t6", 31)]
  (∀ name id, regOf name = some id ↔ name = nameOf id ∨ ∃ n, (n, id) ∈ abi ∧ name = ascii n.toList) ∧
  (∀ id : RegId, nameOf id = ascii ('x' :: Nat.toDigits 10 id.toNat)) ∧
  (∀ id : RegId, regOf (nameOf id) = some id) ∧
  ∀ id id' : RegId, nameOf id = nameOf id' → id = id'

/-- R169: what a literal denotes in either base, hex letters of either case, and what `P_LITOVF` does with 2^32 or more.
The forms are the spec's own (D22); the parameter is open (D23, log 3). -/
def Obligations.LiteralsDenoteTheirMagnitude : Prop :=
  let hexPrefix := ascii ['0', 'x']
  (∀ tok m, literalValue tok = some m ↔ Literal tok m) ∧
  (∀ n, n < 2 ^ 32 → literalValue (decimal 9 n) = some n) ∧
  (∀ upper n, n < 2 ^ 32 → literalValue (hexPrefix ++ hexadecimal upper 7 n) = some n) ∧
  (∀ upper hs m d, d < 16 → literalValue (hexPrefix ++ hs) = some m →
    literalValue (hexPrefix ++ hs ++ [hexDigit upper d]) = some (16 * m + d)) ∧
  (∀ ds m, Literal ds m → ds.take 2 ≠ hexPrefix → literalValue (0x30#8 :: ds) = some m) ∧
  (∀ hs m, literalValue (hexPrefix ++ hs) = some m → literalValue (hexPrefix ++ 0x30#8 :: hs) = some m) ∧
  (∀ ds, literalValue (0x2D#8 :: ds) = none ∧ literalValue (0x2B#8 :: ds) = none) ∧
  literalValue hexPrefix = none ∧
  (∀ p m, m < 2 ^ 32 → immOfMagnitude p m = some (BitVec.ofNat 32 m)) ∧
  ∀ m, 2 ^ 32 ≤ m →
    immOfMagnitude .reduce m = some (BitVec.ofNat 32 (m % 2 ^ 32)) ∧ immOfMagnitude .reject m = none

/-! ### Parser -/

/-- R160 (D20): the lines of an input whose every line ends in a newline, and of one whose last does not; every input is one
of these. -/
def Obligations.LinesAreThePiecesBetweenNewlines : Prop :=
  (∀ ls : List (List Byte), (∀ l ∈ ls, newline ∉ l) → linesOf (ls.flatMap fun l => l ++ [newline]) = ls) ∧
  (∀ (ls : List (List Byte)) (last : List Byte), (∀ l ∈ ls, newline ∉ l) → newline ∉ last → last ≠ [] →
    linesOf ((ls.flatMap fun l => l ++ [newline]) ++ last) = ls ++ [last]) ∧
  ∀ b : List Byte, ∃ (ls : List (List Byte)) (last : List Byte), (∀ l ∈ ls, newline ∉ l) ∧ newline ∉ last ∧
    b = (ls.flatMap fun l => l ++ [newline]) ++ last

/-- R162: the parser accepts exactly the lines of the grammar, each with the statement the grammar gives it. What the source's
outline leaves open is the spec's own (D16, D18, D19, D22, D39, log 9, log 15). -/
def Obligations.ParserAcceptsExactlyTheGrammar : Prop :=
  ∀ (p : LitOvf) (l : List Byte) (o : Op), parseLine p l = some o ↔ IsLine p l o

/-- R164, derived by the spec: at most one alternative of the grammar matches a line, and it gives one statement. -/
def Obligations.TheGrammarIsUnambiguous : Prop :=
  ∀ (p : LitOvf) (l : List Byte) (o o' : Op), IsLine p l o → IsLine p l o' → o = o'

/-- R172: an input parses to one element per line in line order exactly when every line is a line of the grammar; otherwise
it fails with the number of its first line that is none; the empty input gives the empty list. -/
def Obligations.ParseGivesTheListOrTheFirstFailingLine : Prop :=
  ∀ (p : LitOvf) (b : List Byte),
    (∀ prog, parse p b = .ok prog ↔ List.Forall₂ (IsLine p) (linesOf b) prog) ∧
    (∀ k, parse p b = .fail k ↔
      ∃ before l after, linesOf b = before ++ l :: after ∧ k = before.length + 1 ∧ (∀ o, ¬ IsLine p l o) ∧
        ∀ x ∈ before, ∃ o, IsLine p x o) ∧
    parse p [] = .ok []

/-- R24: two names of one register are indistinguishable: a line parses alike with either, wherever the name stands as a
whole token after the mnemonic. -/
def Obligations.NamesOfOneRegisterAreIndistinguishable : Prop :=
  ∀ (p : LitOvf) (n n' : List Byte) (id : RegId) (l r : List Byte) (d : Byte),
    regOf n = some id → regOf n' = some id → isDelim d = true → (∀ c ∈ r.head?, isDelim c = true) →
    parseLine p (l ++ [d] ++ n ++ r) = parseLine p (l ++ [d] ++ n' ++ r)

/-- R41, R171, which the spec derives from R162 (D19, D34): every byte of an accepted line is one that a blank, the comma,
a mnemonic, a register name or a literal has. So a carriage return, a comment sign, a sign, a byte of 0x80 or more, one
of the letters h, j, k, m, q, v, w, y or a capital above F anywhere fails the line. -/
def Obligations.OnlyGrammarBytesAreAccepted : Prop :=
  ∀ (p : LitOvf) (l : List Byte) (o : Op), parseLine p l = some o →
    ∀ c ∈ l, isBlank c = true ∨ c = comma ∨
      c ∈ ascii ['a', 'b', 'c', 'd', 'e', 'f', 'g', 'i', 'l', 'n', 'o', 'p', 'r', 's', 't', 'u', 'x', 'z'] ∨
      (0x30 ≤ c.toNat ∧ c.toNat ≤ 0x39) ∨ (0x41 ≤ c.toNat ∧ c.toNat ≤ 0x46)

/-- R174 (D38, log 26): every canonical spelling is accepted, and the canonical spelling of what a line parsed to parses to
the same, so it lowers to the same word. -/
def Obligations.CanonicalSpellingParsesToTheSameOperation : Prop :=
  (∀ p i, parseLine p (spell i) = some (opOfInstr i)) ∧
  ∀ p l o, parseLine p l = some o → ∃ i, instrOfOp o = some i ∧ parseLine p (spell i) = some o

/-! ### Bytes -/

/-- R43: four bytes, byte `k` of a word its bits `8k+7:8k`, the least significant first. -/
def Obligations.WordsAreEmittedLittleEndian : Prop :=
  ∀ w : Word, ∃ b0 b1 b2 b3 : Byte, bytesOfWord w = [b0, b1, b2, b3] ∧
    w.toNat = b0.toNat + 256 * b1.toNat + 65536 * b2.toNat + 16777216 * b3.toNat

/-! ### Passes -/

/-- A step over a pass whose input parses runs `exec` of each parsed operation in line order, between the read and parse
stages and the emission of their words (R190). That the word list is cleared and the ports stay are the model's choices
(log 6, log 7). -/
def Obligations.StepRunsTheParsedOperations : Prop :=
  ∀ (s : State) (rs : List Request) (input : List Byte) (prog : List Op) (is : List Instr),
    s.requests = .pass input false none :: rs → parse Config.litOvf input = .ok prog →
    prog.map instrOfOp = is.map some →
    step s = andThen
      (is.foldl (fun r i => andThen r (exec i))
        (.next { s with pass := ⟨.idle, input, prog, [], none⟩, words := [], requests := rs }))
      (fun t => .next { t with
        pass := { t.pass with outbuf := bytesOfWords t.words, phase := .done }, words := [] })

/-- A table word that decodes to an operation, placed where the next step takes it, is run by that step: `exec` of the
operation, then its bytes. The decoder (log 4), how a word is placed (log 5), the emptied word list (log 6) and the ports
that stay (log 7) are the model's choices. -/
def Obligations.StepRunsTheOperationOfAPlacedWord : Prop :=
  ∀ (s : State) (w : Nat) (i : Instr), decodeTableWord 32 w = some i →
    step (s.withFetchWord 32 w) = andThen
      (exec i { s with pass := ⟨.idle, spell i ++ [newline], [opOfInstr i], [], none⟩, words := [] })
      (fun t => .next { t with
        pass := { t.pass with outbuf := bytesOfWords t.words, phase := .done }, words := [] })

/-- Reading a word's operation from the opcode table, spelling it (R174) and passing the text gives the word's four bytes
back, from any state. The decoder (log 4) and how a word is placed (log 5) are the model's choices. -/
def Obligations.AssemblingADecodedWordGivesTheWordBack : Prop :=
  ∀ (s : State) (w : Word) (i : Instr), decodeTableWord 32 w.toNat = some i →
    ∃ t, step (s.withFetchWord 32 w.toNat) = .next t ∧
      t.observation = (.done, [w.extractLsb' 0 8, w.extractLsb' 8 8, w.extractLsb' 16 8, w.extractLsb' 24 8], none)

/-- R190: a pass, stage by stage, returns the pass state of the rule's pseudocode, for every input and every draw the host
may make. -/
def Obligations.PassReturnsWhatItsPseudocodeReturns : Prop :=
  ∀ (s : State) (rs : List Request) (input : List Byte) (rdFail : Bool) (wrFail : Option Nat),
    s.requests = .pass input rdFail wrFail :: rs → WriteDrawLegal Config.litOvf input wrFail →
    ∃ t, step s = .next t ∧ t.pass = specPass Config.litOvf input rdFail wrFail

/-- R191 (D27): a read failure comes before any parsing, whatever the input, and hands the host no byte. -/
def Obligations.ReadFailureEndsThePassFirst : Prop :=
  ∀ (s : State) (rs : List Request) (input : List Byte) (wrFail : Option Nat),
    s.requests = .pass input true wrFail :: rs →
    ∃ t, step s = .next t ∧ t.pass = ⟨.failed, [], [], [], some (.ioRead .read)⟩

/-- R192: a parse failure, and an operation that does not lower, fail the pass with `outbuf` empty, whatever the host's
sink does. -/
def Obligations.ParseAndLoweringFailuresEmitNoByte : Prop :=
  (∀ (s : State) (rs : List Request) (input : List Byte) (wrFail : Option Nat) (k : Nat),
    s.requests = .pass input false wrFail :: rs → parse Config.litOvf input = .fail k →
    ∃ t, step s = .next t ∧ t.pass.phase = .failed ∧ t.pass.outbuf = []) ∧
  ∀ (prog : List Op) (s : State) (wrFail : Option Nat),
    s.pass.outbuf = [] → (∃ o ∈ prog, 11 ≤ o.op.toNat) →
    ∃ t, lowerAll prog s = .next t ∧ (emitStage wrFail t).pass.phase = .failed ∧
      (emitStage wrFail t).pass.outbuf = []

/-- R193, R42: a pass that succeeds over N statements ends Done with exactly 4N bytes, word `k` at bytes `4k` to `4k+3`; for
the empty input, none. -/
def Obligations.SuccessfulPassEmitsFourBytesPerStatement : Prop :=
  (∀ (s : State) (rs : List Request) (input : List Byte) (prog : List Op),
    s.requests = .pass input false none :: rs → parse Config.litOvf input = .ok prog →
    ∃ t, step s = .next t ∧ t.pass.phase = .done ∧ t.pass.err = none ∧ t.pass.prog = prog ∧
      t.pass.outbuf.length = 4 * prog.length ∧
      ∀ k o, prog[k]? = some o → (t.pass.outbuf.drop (4 * k)).take 4 = bytesOfWord (lower o).word) ∧
  ∀ (s : State) (rs : List Request), s.requests = .pass [] false none :: rs →
    ∃ t, step s = .next t ∧ t.observation = (.done, [], none)

/-- R194 (D26, log 2): a write failure after `j` bytes leaves the host exactly the first `j` bytes of what the pass without
it emits. -/
def Obligations.WriteFailureLeavesExactlyThePrefix : Prop :=
  ∀ (s u : State) (rs us : List Request) (input : List Byte) (prog : List Op) (j : Nat),
    s.requests = .pass input false (some j) :: rs → u.requests = .pass input false none :: us →
    parse Config.litOvf input = .ok prog → j ≤ 4 * prog.length →
    ∃ t v, step s = .next t ∧ step u = .next v ∧
      t.observation = (.failed, v.pass.outbuf.take j, some (.ioWrite .write j)) ∧ t.pass.outbuf.length = j

/-- R195, derived by the spec: every pass ends, in Done or in Failed, whatever the host draws (a draw R194 does not
allow: log 2). It takes one request, empties the word list (log 6), and leaves the ports and the later requests as they
were (log 1, log 7). -/
def Obligations.EveryPassEndsDoneOrFailed : Prop :=
  ∀ (s : State) (rs : List Request) (input : List Byte) (rdFail : Bool) (wrFail : Option Nat),
    s.requests = .pass input rdFail wrFail :: rs →
    ∃ t, step s = .next t ∧ (t.pass.phase = .done ∨ t.pass.phase = .failed) ∧
      (t.pass.phase = .done ↔ t.pass.err = none) ∧ t = { s with pass := t.pass, words := [], requests := rs }

/-- R198 (D28), R49, derived by the spec (illegal draws: log 2; the word list: log 6): what a pass leaves depends on its input
and the host's draws alone, not on any earlier pass, on the ports or on what the host does next. -/
def Obligations.PassResultIsIndependentOfTheStateBefore : Prop :=
  ∀ (s u : State) (rs us : List Request) (input : List Byte) (rdFail : Bool) (wrFail : Option Nat),
    s.requests = .pass input rdFail wrFail :: rs → u.requests = .pass input rdFail wrFail :: us →
    ∃ t v, step s = .next t ∧ step u = .next v ∧ t.pass = v.pass ∧ t.words = v.words

/-- R214, R218 (D24, D25, log 16, log 24): in stage 3 the first operation with no mapping fails the pass with its selector;
nothing of the pass state but `err` and `phase` changes, and no later byte is emitted. -/
def Obligations.FirstUnmappedOperationFailsThePass : Prop :=
  ∀ (before after : List Op) (o : Op) (s : State) (wrFail : Option Nat),
    (∀ a ∈ before, a.op.toNat ≤ 10) → 11 ≤ o.op.toNat →
    ∃ t, lowerAll (before ++ o :: after) s = .next t ∧
      t.pass = { s.pass with phase := .failed, err := some (.unsupported o.op) } ∧ emitStage wrFail t = t

/-! ### Invariant -/

/-- The invariant holds at reset (R31; D28, log 6). -/
def Obligations.PassConsistencyHoldsAtReset : Prop := State.reset.Inv

/-- Every step keeps the invariant: the pass state is the reset one or the whole record of one pass, with all its output,
a prefix of it or none as its error says (R47, R48, R196), and no pass ends in `E_UNSUPPORTED` or `E_FMT` (R151,
R215). The order of the stages, the prefixes and the emptied word list are choices (D25, D26, log 2, log 6). -/
def Obligations.EveryStepKeepsPassConsistency : Prop :=
  ∀ s t : State, s.Inv → step s = .next t → t.Inv
end

