-- ==== Sys2Proof/Laws/Decode.lean ====
section
/-! SUPPORT. The words of the opcode table bit by bit, and the rows that can match one. -/

namespace Sys2Proof

/-- The four fields of a table word, bit by bit. -/
theorem placeFields_getLsbD (pattern : Word) (rd rs1 : RegId) (field : Word) {k : Nat} (hk : k < 32) :
    (placeFields pattern rd rs1 field).getLsbD k =
      (pattern.getLsbD k || (decide (20 ≤ k) && field.getLsbD (k - 20)) ||
        (decide (15 ≤ k) && rs1.getLsbD (k - 15)) || (decide (7 ≤ k) && rd.getLsbD (k - 7))) := by
  unfold placeFields
  interval_cases k <;> simp

/-- Opcode and funct3 of a table word are its row's. -/
theorem placeFields_and_opcode_funct3 (pattern : Word) (rd rs1 : RegId) (field : Word) :
    placeFields pattern rd rs1 field &&& 0x0000707F = pattern &&& 0x0000707F := by
  refine BitVec.eq_of_getLsbD_eq fun k hk => ?_
  rw [BitVec.getLsbD_and, placeFields_getLsbD _ _ _ _ hk, BitVec.getLsbD_and]
  interval_cases k <;> simp [BitVec.getLsbD_of_ge]

/-- Where the field has five bits, so is funct7. -/
theorem placeFields_and_opcode_functs (pattern : Word) (rd rs1 : RegId) (field : Word)
    (h : field.toNat < 32) :
    placeFields pattern rd rs1 field &&& 0xFE00707F = pattern &&& 0xFE00707F := by
  refine BitVec.eq_of_getLsbD_eq fun k hk => ?_
  have hi : ∀ j, 5 ≤ j → field.getLsbD j = false := fun j hj =>
    Nat.testBit_lt_two_pow (lt_of_lt_of_le h (Nat.pow_le_pow_right (n := 2) (by omega) hj))
  rw [BitVec.getLsbD_and, placeFields_getLsbD _ _ _ _ hk, BitVec.getLsbD_and]
  interval_cases k <;>
    simp [-BitVec.getLsbD_eq_getElem, BitVec.getLsbD_of_ge, hi]

theorem fieldRd_placeFields {pattern : Word} (h : pattern.extractLsb' 7 5 = 0) (rd rs1 : RegId) (field : Word) :
    fieldRd (placeFields pattern rd rs1 field) = rd := by
  refine BitVec.eq_of_getLsbD_eq fun k hk => ?_
  have hp : pattern.getLsbD (7 + k) = false := by simpa [hk] using congrArg (fun v => v.getLsbD k) h
  rw [fieldRd, BitVec.getLsbD_extractLsb', placeFields_getLsbD _ _ _ _ (by omega), hp]
  interval_cases k <;> simp [-BitVec.getLsbD_eq_getElem]

theorem fieldRs1_placeFields {pattern : Word} (h : pattern.extractLsb' 15 5 = 0) (rd rs1 : RegId) (field : Word) :
    fieldRs1 (placeFields pattern rd rs1 field) = rs1 := by
  refine BitVec.eq_of_getLsbD_eq fun k hk => ?_
  have hp : pattern.getLsbD (15 + k) = false := by simpa [hk] using congrArg (fun v => v.getLsbD k) h
  rw [fieldRs1, BitVec.getLsbD_extractLsb', placeFields_getLsbD _ _ _ _ (by omega), hp]
  interval_cases k <;> simp [-BitVec.getLsbD_eq_getElem, BitVec.getLsbD_of_ge]

/-! ### The row a word matches -/

/-- `decodeWord` as a chain of questions, in the order of `decodeRows`. -/
theorem decodeWord_eq_ite (w : Word) :
    decodeWord w =
      if w = 0x00000013 then .instr .nop
      else if w &&& 0x0000707F = 0x00000013 then .instr (readImmForm .addi w)
      else if w &&& 0x0000707F = 0x00002013 then .instr (readImmForm .slti w)
      else if w &&& 0x0000707F = 0x00003013 then .instr (readImmForm .sltiu w)
      else if w &&& 0x0000707F = 0x00007013 then .instr (readImmForm .andi w)
      else if w &&& 0x0000707F = 0x00006013 then .instr (readImmForm .ori w)
      else if w &&& 0x0000707F = 0x00004013 then .instr (readImmForm .xori w)
      else if w &&& 0xFE00707F = 0x00001013 then .instr (readShiftForm .slli w)
      else if w &&& 0xFE00707F = 0x00005013 then .instr (readShiftForm .srli w)
      else if w &&& 0xFE00707F = 0x40005013 then .instr (readShiftForm .srai w)
      else if w &&& 0xFE00707F = 0x00000033 then .instr (.add (fieldRd w) (fieldRs1 w) (fieldRs2 w))
      else .rejected .noRow := by
  have h : w &&& 0xFFFFFFFF = w := BitVec.and_allOnes (x := w)
  show (if w &&& 0xFFFFFFFF = 0x00000013 then _ else _) = _
  rw [h]
  rfl

/-- A word's bits under a wide mask decide its bits under a narrower one. -/
theorem and_narrow {w m n p : Word} (h : w &&& m = p) (hn : m &&& n = n) : w &&& n = p &&& n := by
  rw [← h, BitVec.and_assoc, hn]

/-- Four little-endian bytes of a number below 2^32 are that word (20_memory.md R43). -/
theorem wordOfBytes_byteOfNat (n : Nat) :
    wordOfBytes (byteOfNat n 0) (byteOfNat n 1) (byteOfNat n 2) (byteOfNat n 3) = BitVec.ofNat 32 n := by
  unfold wordOfBytes byteOfNat
  refine BitVec.eq_of_getLsbD_eq fun k hk => ?_
  rw [BitVec.getLsbD_append, BitVec.getLsbD_append, BitVec.getLsbD_append]
  simp only [BitVec.getLsbD_ofNat]
  interval_cases k <;> simp

/-- A table word is decoded as the four bytes it is laid out in. -/
theorem decodeTableWord_eq (nbits n : Nat) :
    decodeTableWord nbits n =
      match decodeWord (wordOfBytes (byteOfNat (n % 2 ^ nbits) 0) (byteOfNat (n % 2 ^ nbits) 1)
        (byteOfNat (n % 2 ^ nbits) 2) (byteOfNat (n % 2 ^ nbits) 3)) with
      | .instr i => some i
      | .rejected _ => none :=
  rfl

/-- A table word of 32 bits is decoded as the word it is. -/
theorem decodeTableWord_of_word (w : Word) :
    decodeTableWord 32 w.toNat = match decodeWord w with | .instr i => some i | .rejected _ => none := by
  rw [decodeTableWord_eq, wordOfBytes_byteOfNat, Nat.mod_eq_of_lt w.isLt, BitVec.ofNat_toNat, BitVec.setWidth_eq]

end Sys2Proof
end

