-- ==== Sys2Proof/Laws/State.lean ====
section
/-! SUPPORT. One lemma per field per update of the shared operations, so that no proof unfolds a record update, and what
else the shared operations do. -/

namespace Sys2Proof.Machine

/-! ### `appendWord` -/

@[simp] theorem appendWord_pass (w : Word) (s : State) : (appendWord w s).pass = s.pass := rfl
@[simp] theorem appendWord_words (w : Word) (s : State) : (appendWord w s).words = s.words ++ [w] := rfl
@[simp] theorem appendWord_encIn (w : Word) (s : State) : (appendWord w s).encIn = s.encIn := rfl
@[simp] theorem appendWord_decIn (w : Word) (s : State) : (appendWord w s).decIn = s.decIn := rfl
@[simp] theorem appendWord_luIn (w : Word) (s : State) : (appendWord w s).luIn = s.luIn := rfl
@[simp] theorem appendWord_requests (w : Word) (s : State) : (appendWord w s).requests = s.requests := rfl

/-! ### `failPass` (60_exceptions.md R219) -/

@[simp] theorem failPass_phase (e : ErrorRecord) (s : State) : (failPass e s).pass.phase = .failed := rfl
@[simp] theorem failPass_err (e : ErrorRecord) (s : State) : (failPass e s).pass.err = some e := rfl
@[simp] theorem failPass_inbuf (e : ErrorRecord) (s : State) : (failPass e s).pass.inbuf = s.pass.inbuf := rfl
@[simp] theorem failPass_prog (e : ErrorRecord) (s : State) : (failPass e s).pass.prog = s.pass.prog := rfl
@[simp] theorem failPass_outbuf (e : ErrorRecord) (s : State) : (failPass e s).pass.outbuf = s.pass.outbuf := rfl
@[simp] theorem failPass_words (e : ErrorRecord) (s : State) : (failPass e s).words = s.words := rfl
@[simp] theorem failPass_encIn (e : ErrorRecord) (s : State) : (failPass e s).encIn = s.encIn := rfl
@[simp] theorem failPass_decIn (e : ErrorRecord) (s : State) : (failPass e s).decIn = s.decIn := rfl
@[simp] theorem failPass_luIn (e : ErrorRecord) (s : State) : (failPass e s).luIn = s.luIn := rfl
@[simp] theorem failPass_requests (e : ErrorRecord) (s : State) : (failPass e s).requests = s.requests := rfl

/-! ### `beginPass` and `endPass` (43_pass_and_emitter.md R190, R198) -/

@[simp] theorem beginPass_pass (s : State) : (beginPass s).pass = PassState.reset := rfl
@[simp] theorem beginPass_words (s : State) : (beginPass s).words = [] := rfl
@[simp] theorem beginPass_encIn (s : State) : (beginPass s).encIn = s.encIn := rfl
@[simp] theorem beginPass_decIn (s : State) : (beginPass s).decIn = s.decIn := rfl
@[simp] theorem beginPass_luIn (s : State) : (beginPass s).luIn = s.luIn := rfl
@[simp] theorem beginPass_requests (s : State) : (beginPass s).requests = s.requests := rfl

@[simp] theorem endPass_pass (s : State) : (endPass s).pass = s.pass := rfl
@[simp] theorem endPass_words (s : State) : (endPass s).words = [] := rfl
@[simp] theorem endPass_encIn (s : State) : (endPass s).encIn = s.encIn := rfl
@[simp] theorem endPass_decIn (s : State) : (endPass s).decIn = s.decIn := rfl
@[simp] theorem endPass_luIn (s : State) : (endPass s).luIn = s.luIn := rfl
@[simp] theorem endPass_requests (s : State) : (endPass s).requests = s.requests := rfl

/-! ### `andThen` -/

@[simp] theorem andThen_next (s : State) (f : State → Host.Outcome State Fault Refusal) :
    andThen (.next s) f = f s := rfl

/-- A sequence answers a next state only through one: both parts do. -/
theorem andThen_eq_next {o : Host.Outcome State Fault Refusal} {f : State → Host.Outcome State Fault Refusal}
    {t : State} (h : andThen o f = .next t) : ∃ s, o = .next s ∧ f s = .next t := by
  cases o with
  | next s => exact ⟨s, rfl, h⟩
  | fault r => cases h
  | refused r => cases h

/-! ### Bytes of words (20_memory.md R43, R44) -/

@[simp] theorem bytesOfWord_length (w : Word) : (bytesOfWord w).length = 4 := rfl

@[simp] theorem bytesOfWords_nil : bytesOfWords [] = [] := rfl

@[simp] theorem bytesOfWords_cons (w : Word) (ws : List Word) :
    bytesOfWords (w :: ws) = bytesOfWord w ++ bytesOfWords ws := rfl

@[simp] theorem bytesOfWords_length (ws : List Word) : (bytesOfWords ws).length = 4 * ws.length := by
  induction ws with
  | nil => rfl
  | cons w ws ih => simp [ih]; omega

theorem bytesOfWords_append (ws vs : List Word) : bytesOfWords (ws ++ vs) = bytesOfWords ws ++ bytesOfWords vs := by
  simp [bytesOfWords]

end Sys2Proof.Machine
end

