-- ==== Sys2Proof/Laws/Exec.lean ====
section
/-! SUPPORT. What an operation's meaning can do, said once; and the two maps between operations and elements of
`prog`. -/

namespace Sys2Proof.Machine

/-- Every operation appends one word, the same in every state, and changes nothing else. -/
theorem exec_appends_one_word (i : Instr) : ∃ w, ∀ s, exec i s = .next (appendWord w s) := by
  cases i <;> exact ⟨_, fun _ => rfl⟩

/-- The inversion of `exec`: a next state is the old one with one word more. -/
theorem exec_eq_next {i : Instr} {s t : State} (h : exec i s = .next t) : ∃ w, t = appendWord w s := by
  obtain ⟨w, hw⟩ := exec_appends_one_word i
  exact ⟨w, by simpa [hw] using h.symm⟩

@[simp] theorem instrOfOp_opOfInstr (i : Instr) : instrOfOp (opOfInstr i) = some i := by
  cases i <;> rfl

/-- An element with no mapping has selector 11 or more (30_encoding.md R78). -/
theorem instrOfOp_eq_none {o : Op} : instrOfOp o = none ↔ 11 ≤ o.op.toNat := by
  unfold instrOfOp
  split <;> simp_all
  have := o.op.isLt
  omega

end Sys2Proof.Machine
end

