-- ==== Sys2Proof/Laws/FormatCodec.lean ====
section
/-! SUPPORT. Bit by bit, what each encode stores and what each decode gathers: cite these in place of unfolding the
concatenations of Machine/FormatCodec.lean. -/

namespace Sys2Proof.Machine

/-! ### Encode -/

theorem encR_getLsbD (opcode : BitVec 7) (rd : RegId) (funct3 : BitVec 3) (rs1 rs2 : RegId) (funct7 : BitVec 7)
    (k : Nat) :
    (encR opcode rd funct3 rs1 rs2 funct7).getLsbD k =
      if k < 7 then opcode.getLsbD k else if k < 12 then rd.getLsbD (k - 7)
      else if k < 15 then funct3.getLsbD (k - 12) else if k < 20 then rs1.getLsbD (k - 15)
      else if k < 25 then rs2.getLsbD (k - 20) else funct7.getLsbD (k - 25) := by
  unfold encR
  show BitVec.getLsbD (w := 7 + 5 + 5 + 3 + 5 + 7) _ k = _
  simp only [BitVec.getLsbD_append]
  split_ifs <;> first | rfl | omega

theorem encI_getLsbD (opcode : BitVec 7) (rd : RegId) (funct3 : BitVec 3) (rs1 : RegId) (imm : Word) (k : Nat) :
    (encI opcode rd funct3 rs1 imm).getLsbD k =
      if k < 7 then opcode.getLsbD k else if k < 12 then rd.getLsbD (k - 7)
      else if k < 15 then funct3.getLsbD (k - 12) else if k < 20 then rs1.getLsbD (k - 15)
      else (imm.extractLsb' 0 12).getLsbD (k - 20) := by
  unfold encI
  show BitVec.getLsbD (w := 12 + 5 + 3 + 5 + 7) _ k = _
  simp only [BitVec.getLsbD_append]
  split_ifs <;> first | rfl | omega

theorem encS_getLsbD (opcode : BitVec 7) (funct3 : BitVec 3) (rs1 rs2 : RegId) (imm : Word) (k : Nat) :
    (encS opcode funct3 rs1 rs2 imm).getLsbD k =
      if k < 7 then opcode.getLsbD k else if k < 12 then (imm.extractLsb' 0 5).getLsbD (k - 7)
      else if k < 15 then funct3.getLsbD (k - 12) else if k < 20 then rs1.getLsbD (k - 15)
      else if k < 25 then rs2.getLsbD (k - 20) else (imm.extractLsb' 5 7).getLsbD (k - 25) := by
  unfold encS
  show BitVec.getLsbD (w := 7 + 5 + 5 + 3 + 5 + 7) _ k = _
  simp only [BitVec.getLsbD_append]
  split_ifs <;> first | rfl | omega

theorem encSB_getLsbD (opcode : BitVec 7) (funct3 : BitVec 3) (rs1 rs2 : RegId) (imm : Word) (k : Nat) :
    (encSB opcode funct3 rs1 rs2 imm).getLsbD k =
      if k < 7 then opcode.getLsbD k else if k < 8 then (imm.extractLsb' 11 1).getLsbD (k - 7)
      else if k < 12 then (imm.extractLsb' 1 4).getLsbD (k - 8)
      else if k < 15 then funct3.getLsbD (k - 12) else if k < 20 then rs1.getLsbD (k - 15)
      else if k < 25 then rs2.getLsbD (k - 20) else if k < 31 then (imm.extractLsb' 5 6).getLsbD (k - 25)
      else (imm.extractLsb' 12 1).getLsbD (k - 31) := by
  unfold encSB
  show BitVec.getLsbD (w := 1 + 6 + 5 + 5 + 3 + 4 + 1 + 7) _ k = _
  simp only [BitVec.getLsbD_append]
  split_ifs <;> first | rfl | omega

theorem encU_getLsbD (opcode : BitVec 7) (rd : RegId) (imm : Word) (k : Nat) :
    (encU opcode rd imm).getLsbD k =
      if k < 7 then opcode.getLsbD k else if k < 12 then rd.getLsbD (k - 7)
      else (imm.extractLsb' 12 20).getLsbD (k - 12) := by
  unfold encU
  show BitVec.getLsbD (w := 20 + 5 + 7) _ k = _
  simp only [BitVec.getLsbD_append]
  split_ifs <;> first | rfl | omega

theorem encUJ_getLsbD (opcode : BitVec 7) (rd : RegId) (imm : Word) (k : Nat) :
    (encUJ opcode rd imm).getLsbD k =
      if k < 7 then opcode.getLsbD k else if k < 12 then rd.getLsbD (k - 7)
      else if k < 20 then (imm.extractLsb' 12 8).getLsbD (k - 12)
      else if k < 21 then (imm.extractLsb' 11 1).getLsbD (k - 20)
      else if k < 31 then (imm.extractLsb' 1 10).getLsbD (k - 21)
      else (imm.extractLsb' 20 1).getLsbD (k - 31) := by
  unfold encUJ
  show BitVec.getLsbD (w := 1 + 10 + 1 + 8 + 5 + 7) _ k = _
  simp only [BitVec.getLsbD_append]
  split_ifs <;> first | rfl | omega

/-! ### Decode -/

theorem gatherI_getLsbD (w : Word) (k : Nat) :
    (gatherI w).getLsbD k = (decide (k < 32) && if k < 12 then w.getLsbD (20 + k) else w.getLsbD 31) := by
  unfold gatherI
  simp only [BitVec.getLsbD_signExtend, BitVec.getLsbD_extractLsb', BitVec.msb_eq_getLsbD_last]
  split_ifs <;> simp_all

theorem gatherS_getLsbD (w : Word) (k : Nat) :
    (gatherS w).getLsbD k = (decide (k < 32) &&
      if k < 5 then w.getLsbD (7 + k) else if k < 12 then w.getLsbD (20 + k) else w.getLsbD 31) := by
  unfold gatherS
  simp only [BitVec.getLsbD_signExtend, BitVec.msb_eq_getLsbD_last, BitVec.getLsbD_append, BitVec.getLsbD_extractLsb']
  by_cases h : k < 32
  · interval_cases k <;> simp
  · simp [h]

theorem gatherSB_getLsbD (w : Word) (k : Nat) :
    (gatherSB w).getLsbD k = (decide (k < 32) &&
      if k = 0 then false else if k < 5 then w.getLsbD (7 + k) else if k < 11 then w.getLsbD (20 + k)
      else if k = 11 then w.getLsbD 7 else w.getLsbD 31) := by
  unfold gatherSB
  simp only [BitVec.getLsbD_signExtend, BitVec.msb_eq_getLsbD_last, BitVec.getLsbD_append, BitVec.getLsbD_extractLsb']
  by_cases h : k < 32
  · interval_cases k <;> simp
  · simp [h]

theorem gatherU_getLsbD (w : Word) (k : Nat) :
    (gatherU w).getLsbD k = (decide (k < 32) && if k < 12 then false else w.getLsbD k) := by
  unfold gatherU
  show BitVec.getLsbD (w := 20 + 12) _ k = _
  simp only [BitVec.getLsbD_append, BitVec.getLsbD_extractLsb']
  by_cases h : k < 32
  · interval_cases k <;> simp
  · simp [h, show ¬ k < 12 by omega, show ¬ k - 12 < 20 by omega]

theorem gatherUJ_getLsbD (w : Word) (k : Nat) :
    (gatherUJ w).getLsbD k = (decide (k < 32) &&
      if k = 0 then false else if k < 11 then w.getLsbD (20 + k) else if k = 11 then w.getLsbD 20
      else if k < 20 then w.getLsbD k else w.getLsbD 31) := by
  unfold gatherUJ
  simp only [BitVec.getLsbD_signExtend, BitVec.msb_eq_getLsbD_last, BitVec.getLsbD_append, BitVec.getLsbD_extractLsb']
  by_cases h : k < 32
  · interval_cases k <;> simp
  · simp [h]

/-! ### Canonical immediates (30_encoding.md R73) -/

theorem canonImm_i_getLsbD (v : Word) (k : Nat) :
    (canonImm .i v).getLsbD k = (decide (k < 32) && if k < 12 then v.getLsbD k else v.getLsbD 11) := by
  simp only [canonImm, BitVec.getLsbD_signExtend, BitVec.getLsbD_extractLsb', BitVec.msb_eq_getLsbD_last]
  split_ifs <;> simp_all

theorem canonImm_sb_getLsbD (v : Word) (k : Nat) :
    (canonImm .sb v).getLsbD k = (decide (k < 32) &&
      if k = 0 then false else if k < 13 then v.getLsbD k else v.getLsbD 12) := by
  simp only [canonImm, BitVec.getLsbD_signExtend, BitVec.msb_eq_getLsbD_last, BitVec.getLsbD_append,
    BitVec.getLsbD_extractLsb']
  by_cases h : k < 32
  · interval_cases k <;> simp
  · simp [h]

theorem canonImm_u_getLsbD (v : Word) (k : Nat) :
    (canonImm .u v).getLsbD k = (decide (k < 32) && if k < 12 then false else v.getLsbD k) :=
  gatherU_getLsbD v k

theorem canonImm_uj_getLsbD (v : Word) (k : Nat) :
    (canonImm .uj v).getLsbD k = (decide (k < 32) &&
      if k = 0 then false else if k < 21 then v.getLsbD k else v.getLsbD 20) := by
  simp only [canonImm, BitVec.getLsbD_signExtend, BitVec.msb_eq_getLsbD_last, BitVec.getLsbD_append,
    BitVec.getLsbD_extractLsb']
  by_cases h : k < 32
  · interval_cases k <;> simp
  · simp [h]

/-! ### Selectors -/

/-- The six selectors of 30_encoding.md R77 and the two reserved ones. -/
theorem formatOfSelector_isSome (sel : BitVec 3) : (formatOfSelector sel).isSome = decide (sel.toNat ≤ 5) := by
  revert sel; decide

@[simp] theorem recordOfPorts_format (f : Format) (p : EncIn) : (recordOfPorts f p).format = f := by
  cases f <;> rfl

@[simp] theorem decodeRecord_format (f : Format) (w : Word) : (decodeRecord f w).format = f := by
  cases f <;> rfl

@[simp] theorem withImm_format (rec : FormatRecord) (v : Word) : (rec.withImm v).format = rec.format := by
  cases rec <;> rfl

@[simp] theorem withImm_imm_self (rec : FormatRecord) : rec.withImm rec.imm = rec := by
  cases rec <;> rfl

end Sys2Proof.Machine
end

