-- ==== Sys2Proof/Laws/Parser.lean ====
section
/-! SUPPORT. Tokens, names and blanks: what the parser's pieces can do, said once. -/

namespace Sys2Proof.Machine

/-! ### Tokens -/

theorem token_append_afterToken (l : List Byte) : token l ++ afterToken l = l :=
  List.takeWhile_append_dropWhile

/-- No byte of a token ends one. -/
theorem token_all_not_delim (l : List Byte) : (token l).all (fun c => !isDelim c) = true :=
  List.all_takeWhile

/-- What follows a token begins with a byte that ends one. -/
theorem afterToken_head {l r : List Byte} {c : Byte} (h : afterToken l = c :: r) : isDelim c = true := by
  induction l with
  | nil => simp [afterToken] at h
  | cons a l ih =>
    by_cases ha : isDelim a = true
    · simp only [afterToken, List.dropWhile_cons, ha, Bool.not_true, Bool.false_eq_true, if_false] at h
      exact (List.cons.inj h).1 ▸ ha
    · exact ih (by simpa [afterToken, List.dropWhile_cons, ha] using h)

/-- A text with no delimiter, before nothing or before a delimiter, is the token there. -/
theorem token_of_append {t rest : List Byte} (ht : t.all (fun c => !isDelim c) = true)
    (hr : ∀ c r, rest = c :: r → isDelim c = true) :
    token (t ++ rest) = t ∧ afterToken (t ++ rest) = rest := by
  have h0 : List.takeWhile (fun c => !isDelim c) rest = [] ∧ List.dropWhile (fun c => !isDelim c) rest = rest := by
    cases rest with
    | nil => exact ⟨rfl, rfl⟩
    | cons c r => simp [hr c r rfl]
  have ht' : ∀ a ∈ t, (!isDelim a) = true := List.all_eq_true.1 ht
  exact ⟨by rw [token, List.takeWhile_append_of_pos ht', h0.1, List.append_nil],
    by rw [afterToken, List.dropWhile_append_of_pos ht', h0.2]⟩

/-! ### Blanks -/

theorem isTrail_iff_blanks (l : List Byte) : isTrail l = true ↔ Blanks l := by
  simp [isTrail, Blanks, isBlank]

theorem blank_isDelim {c : Byte} (h : c = 0x20 ∨ c = 0x09) : isDelim c = true := by
  rcases h with rfl | rfl <;> decide

/-- Blanks before a byte that is none are dropped, and nothing else is. -/
theorem dropWhile_blanks {b rest : List Byte} (hb : Blanks b) (hr : ∀ c r, rest = c :: r → isBlank c = false) :
    (b ++ rest).dropWhile isBlank = rest := by
  have hb' : ∀ a ∈ b, isBlank a = true := fun a ha => by
    rcases hb a ha with rfl | rfl <;> decide
  rw [List.dropWhile_append_of_pos hb']
  cases rest with
  | nil => rfl
  | cons c r => simp [hr c r rfl]

theorem takeWhile_isBlank_blanks (l : List Byte) : Blanks (l.takeWhile isBlank) := by
  rw [← isTrail_iff_blanks]
  exact List.all_takeWhile

/-! ### Names -/

/-- In a list of distinct keys, looking a key up and being listed are the same. -/
theorem lookup_eq_some_iff_mem {α : Type} {l : List (List Byte × α)} (hl : (l.map Prod.fst).Nodup)
    (k : List Byte) (v : α) : l.lookup k = some v ↔ (k, v) ∈ l := by
  induction l with
  | nil => simp
  | cons p l ih =>
    obtain ⟨a, b⟩ := p
    simp only [List.map_cons, List.nodup_cons] at hl
    by_cases h : k = a
    · subst h
      have hk : ∀ u, (k, u) ∉ l := fun u hu => hl.1 (List.mem_map_of_mem (f := Prod.fst) hu)
      simp [List.lookup, hk, eq_comm]
    · simp [List.lookup, h, beq_eq_false_iff_ne.2 h, ih hl.2]

/-- The 65 names are distinct (10_state.md R22). -/
theorem regNames_keys_nodup : (regNames.map Prod.fst).Nodup := by decide +kernel

theorem mnemonics_keys_nodup : (mnemonics.map Prod.fst).Nodup := by decide +kernel

theorem regOf_eq_some_iff_mem (name : List Byte) (id : RegId) : regOf name = some id ↔ (name, id) ∈ regNames :=
  lookup_eq_some_iff_mem regNames_keys_nodup name id

theorem selectorOf_eq_some_iff_mem (name : List Byte) (op : BitVec 4) :
    selectorOf name = some op ↔ (name, op) ∈ mnemonics :=
  lookup_eq_some_iff_mem mnemonics_keys_nodup name op

/-- A register name is one token. -/
theorem regName_not_delim {name : List Byte} {id : RegId} (h : (name, id) ∈ regNames) :
    name ≠ [] ∧ name.all (fun c => !isDelim c) = true := by
  have : ∀ p ∈ regNames, p.1 ≠ [] ∧ p.1.all (fun c => !isDelim c) = true := by decide +kernel
  exact this _ h

/-- A mnemonic is one token, and its selector is at most 10. -/
theorem mnemonic_not_delim {name : List Byte} {op : BitVec 4} (h : (name, op) ∈ mnemonics) :
    name ≠ [] ∧ name.all (fun c => !isDelim c) = true ∧ op.toNat ≤ 10 := by
  have : ∀ p ∈ mnemonics, p.1 ≠ [] ∧ p.1.all (fun c => !isDelim c) = true ∧ p.2.toNat ≤ 10 := by decide +kernel
  exact this _ h

/-! ### Literals -/

theorem hexDigit_not_delim {c : Byte} (h : isHexDigit c = true) : isDelim c = false := by
  revert c; decide +kernel

theorem decDigit_isHexDigit {c : Byte} (h : isDecDigit c = true) : isHexDigit c = true := by
  simp [isHexDigit, h]

/-- A literal is one token. -/
theorem literal_not_delim {tok : List Byte} {m : Nat} (h : Literal tok m) :
    tok ≠ [] ∧ tok.all (fun c => !isDelim c) = true := by
  cases h with
  | decimal _ hne hd =>
    refine ⟨hne, List.all_eq_true.2 fun c hc => ?_⟩
    simp [hexDigit_not_delim (decDigit_isHexDigit (hd c hc))]
  | hex hs _ hd =>
    refine ⟨by simp [ascii], List.all_eq_true.2 fun c hc => ?_⟩
    rcases List.mem_append.1 hc with h | h
    · have hx : ∀ c ∈ ascii ['0', 'x'], (!isDelim c) = true := by decide
      exact hx c h
    · simp [hexDigit_not_delim (hd c h)]

/-- What `takeReg` answers: a name of the table up to a delimiter or the end, and what follows it. -/
theorem takeReg_eq_some_iff (l : List Byte) (r : RegId) (rest : List Byte) :
    takeReg l = some (r, rest) ↔
      ∃ n, (n, r) ∈ regNames ∧ l = n ++ rest ∧ ∀ c q, rest = c :: q → isDelim c = true := by
  simp only [takeReg, Option.map_eq_some_iff, Prod.mk.injEq]
  constructor
  · rintro ⟨a, h, rfl, rfl⟩
    exact ⟨token l, (regOf_eq_some_iff_mem _ _).1 h, (token_append_afterToken l).symm,
      fun c q h => afterToken_head h⟩
  · rintro ⟨n, h, rfl, hr⟩
    have := token_of_append (regName_not_delim h).2 hr
    rw [this.1, this.2]
    exact ⟨r, (regOf_eq_some_iff_mem _ _).2 h, rfl, rfl⟩

/-- What follows dropped blanks begins with no blank. -/
theorem dropWhile_isBlank_head {l q : List Byte} {c : Byte} (h : l.dropWhile isBlank = c :: q) :
    isBlank c = false := by
  have := List.head_dropWhile_not isBlank (l := l) (by rw [h]; simp)
  simpa [h] using this

/-- What `takeComma` answers: `"," ows` is cut off, all of its blanks. -/
theorem takeComma_eq_some_iff (l rest : List Byte) :
    takeComma l = some rest ↔
      ∃ b, l = [comma] ++ b ++ rest ∧ Blanks b ∧ ∀ c q, rest = c :: q → isBlank c = false := by
  constructor
  · intro h
    cases l with
    | nil => simp [takeComma] at h
    | cons c cs =>
      simp only [takeComma] at h
      split_ifs at h with hc
      simp only [Option.some.injEq] at h
      subst hc h
      exact ⟨cs.takeWhile isBlank, by simp, takeWhile_isBlank_blanks _, fun c q h => dropWhile_isBlank_head h⟩
  · rintro ⟨b, rfl, hb, hr⟩
    simp [takeComma, dropWhile_blanks hb hr]

/-- What `takeBlanks` answers: one or more blanks are cut off, all of them. -/
theorem takeBlanks_eq_some_iff (l rest : List Byte) :
    takeBlanks l = some rest ↔
      ∃ b, b ≠ [] ∧ l = b ++ rest ∧ Blanks b ∧ ∀ c q, rest = c :: q → isBlank c = false := by
  constructor
  · intro h
    cases l with
    | nil => simp [takeBlanks] at h
    | cons c cs =>
      simp only [takeBlanks] at h
      split_ifs at h with hc
      simp only [Option.some.injEq] at h
      subst h
      refine ⟨c :: cs.takeWhile isBlank, by simp, by simp, ?_, fun c q h => dropWhile_isBlank_head h⟩
      intro a ha
      rcases List.mem_cons.1 ha with rfl | ha
      · simpa [isBlank] using hc
      · exact takeWhile_isBlank_blanks _ a ha
  · rintro ⟨b, hne, rfl, hb, hr⟩
    cases b with
    | nil => exact absurd rfl hne
    | cons a b =>
      have ha : isBlank a = true := by rcases hb a (by simp) with rfl | rfl <;> decide
      have hb' : Blanks b := fun c hc => hb c (List.mem_cons_of_mem _ hc)
      simp [takeBlanks, ha, dropWhile_blanks hb' hr]

/-! ### The list of lines -/

@[simp] theorem parseLines_nil (p : LitOvf) (k : Nat) : parseLines p k [] = .ok [] := rfl

/-- The lines parse to `prog` exactly when each parses to its element. -/
theorem parseLines_eq_ok (p : LitOvf) (k : Nat) (ls : List (List Byte)) (prog : List Op) :
    parseLines p k ls = .ok prog ↔ ls.map (parseLine p) = prog.map some := by
  induction ls generalizing k prog with
  | nil => cases prog <;> simp
  | cons l ls ih =>
    cases h : parseLine p l with
    | none => cases prog <;> simp [parseLines, h]
    | some o =>
      cases h' : parseLines p (k + 1) ls with
      | ok os =>
        cases prog with
        | nil => simp [parseLines, h, h']
        | cons o' os' =>
          have := ih (k + 1) os'
          rw [h', ParseResult.ok.injEq] at this
          simp [parseLines, h, h', this]
      | fail j =>
        cases prog with
        | nil => simp [parseLines, h, h']
        | cons o' os' =>
          have := ih (k + 1) os'
          rw [h'] at this
          simp only [reduceCtorEq, false_iff] at this
          simp [parseLines, h, h', this]

/-- The lines fail with the number of the first that does not parse. -/
theorem parseLines_eq_fail (p : LitOvf) (k : Nat) (ls : List (List Byte)) (j : Nat) :
    parseLines p k ls = .fail j ↔
      ∃ before l after, ls = before ++ l :: after ∧ j = k + before.length ∧ parseLine p l = none ∧
        ∀ x ∈ before, parseLine p x ≠ none := by
  induction ls generalizing k with
  | nil => simp
  | cons l ls ih =>
    cases h : parseLine p l with
    | none =>
      simp only [parseLines, h, ParseResult.fail.injEq]
      constructor
      · rintro rfl
        exact ⟨[], l, ls, rfl, rfl, h, by simp⟩
      · rintro ⟨before, m, after, heq, rfl, -, hb⟩
        cases before with
        | nil => rfl
        | cons x xs =>
          obtain ⟨rfl, -⟩ := List.cons.inj heq
          exact absurd h (hb l (by simp))
    | some o =>
      have hstep : parseLines p k (l :: ls) = .fail j ↔ parseLines p (k + 1) ls = .fail j := by
        cases h' : parseLines p (k + 1) ls <;> simp [parseLines, h, h']
      rw [hstep, ih]
      constructor
      · rintro ⟨before, m, after, rfl, rfl, hm, hb⟩
        refine ⟨l :: before, m, after, rfl, by simp; omega, hm, ?_⟩
        rintro x hx
        rcases List.mem_cons.1 hx with rfl | hx
        · simp [h]
        · exact hb x hx
      · rintro ⟨before, m, after, heq, rfl, hm, hb⟩
        cases before with
        | nil =>
          obtain ⟨rfl, -⟩ := List.cons.inj heq
          simp [h] at hm
        | cons x xs =>
          obtain ⟨rfl, rfl⟩ := List.cons.inj heq
          exact ⟨xs, m, after, rfl, by simp; omega, hm, fun y hy => hb y (by simp [hy])⟩

end Sys2Proof.Machine
end

