-- ==== Sys2Proof/Laws/Pass.lean ====
section
/-! SUPPORT. What each stage of a pass can do, and that a stage after a failure does nothing (60_exceptions.md R219). -/

namespace Sys2Proof.Machine

theorem parseStage_of_failed (p : LitOvf) {s : State} (h : s.pass.phase = .failed) : parseStage p s = s := by
  simp [parseStage, h]

theorem lowerStage_of_failed {s : State} (h : s.pass.phase = .failed) : lowerStage s = .next s := by
  simp [lowerStage, h]

theorem emitStage_of_failed (wrFail : Option Nat) {s : State} (h : s.pass.phase = .failed) :
    emitStage wrFail s = s := by
  simp [emitStage, h]

@[simp] theorem lowerAll_nil (s : State) : lowerAll [] s = .next s := rfl

/-- Stage 3 at an operation with a mapping: its meaning, then the rest. -/
theorem lowerAll_cons_mapped {o : Op} {i : Instr} (h : instrOfOp o = some i) (os : List Op) (s : State) :
    lowerAll (o :: os) s = andThen (exec i s) (lowerAll os) := by
  simp [lowerAll, h]

/-- Stage 3 at an operation with no mapping: the pass fails there. -/
theorem lowerAll_cons_unmapped {o : Op} (h : instrOfOp o = none) (os : List Op) (s : State) :
    lowerAll (o :: os) s = .next (failPass (.unsupported o.op) s) := by
  simp [lowerAll, h]

/-- Stage 3 always answers a next state. What it can change is the word list, and `err` and `phase` where an
operation has no mapping. -/
theorem lowerAll_next (os : List Op) (s : State) :
    ∃ ws, lowerAll os s = .next { s with words := s.words ++ ws } ∨
      ∃ sel, lowerAll os s = .next (failPass (.unsupported sel) { s with words := s.words ++ ws }) := by
  induction os generalizing s with
  | nil => exact ⟨[], .inl (by simp)⟩
  | cons o os ih =>
    cases h : instrOfOp o with
    | none => exact ⟨[], .inr ⟨o.op, by simp [lowerAll_cons_unmapped h]⟩⟩
    | some i =>
      obtain ⟨w, hw⟩ := exec_appends_one_word i
      obtain ⟨ws, hws⟩ := ih (appendWord w s)
      refine ⟨w :: ws, ?_⟩
      rw [lowerAll_cons_mapped h, hw, andThen_next]
      simpa [appendWord] using hws

end Sys2Proof.Machine
end

