-- ==== Sys2Proof/Laws/PerInstr.lean ====
section
/-! SUPPORT. Per operation: its word lies in its own row of spec/opcode_table.json, whatever its operands. -/

namespace Sys2Proof.Laws.RowMatch

/-- The mask and the match columns of an operation's row. -/
def row : Instr → Word × Word
  | .addi .. => (0x0000707F, 0x00000013)
  | .slti .. => (0x0000707F, 0x00002013)
  | .sltiu .. => (0x0000707F, 0x00003013)
  | .andi .. => (0x0000707F, 0x00007013)
  | .ori .. => (0x0000707F, 0x00006013)
  | .xori .. => (0x0000707F, 0x00004013)
  | .slli .. => (0xFE00707F, 0x00001013)
  | .srli .. => (0xFE00707F, 0x00005013)
  | .srai .. => (0xFE00707F, 0x40005013)
  | .nop => (0xFFFFFFFF, 0x00000013)
  | .add .. => (0xFE00707F, 0x00000033)

/-- The operation's word has the bits its row fixes. -/
def Statement (i : Instr) : Prop := encode i &&& (row i).1 = (row i).2

/-- A word of `placeImm` keeps opcode and funct3, so it lies in any row with the narrow mask and its pattern. -/
theorem placeImm_row {pattern : Word} (h : pattern &&& 0x0000707F = pattern) (rd rs1 : RegId) (imm : Word) :
    placeImm pattern rd rs1 imm &&& 0x0000707F = pattern :=
  (placeFields_and_opcode_funct3 pattern rd rs1 _).trans h

/-- A word of `placeShamt` keeps funct7 too. -/
theorem placeShamt_row {pattern : Word} (h : pattern &&& 0xFE00707F = pattern) (rd rs1 : RegId) (imm : Word) :
    placeShamt pattern rd rs1 imm &&& 0xFE00707F = pattern := by
  refine (placeFields_and_opcode_functs pattern rd rs1 _ ?_).trans h
  rw [BitVec.toNat_and]
  exact lt_of_le_of_lt Nat.and_le_right (by decide)

theorem addi (rd rs1 : RegId) (imm : Word) : Statement (.addi rd rs1 imm) := placeImm_row (by decide) rd rs1 imm
theorem slti (rd rs1 : RegId) (imm : Word) : Statement (.slti rd rs1 imm) := placeImm_row (by decide) rd rs1 imm
theorem sltiu (rd rs1 : RegId) (imm : Word) : Statement (.sltiu rd rs1 imm) := placeImm_row (by decide) rd rs1 imm
theorem andi (rd rs1 : RegId) (imm : Word) : Statement (.andi rd rs1 imm) := placeImm_row (by decide) rd rs1 imm
theorem ori (rd rs1 : RegId) (imm : Word) : Statement (.ori rd rs1 imm) := placeImm_row (by decide) rd rs1 imm
theorem xori (rd rs1 : RegId) (imm : Word) : Statement (.xori rd rs1 imm) := placeImm_row (by decide) rd rs1 imm
theorem slli (rd rs1 : RegId) (imm : Word) : Statement (.slli rd rs1 imm) := placeShamt_row (by decide) rd rs1 imm
theorem srli (rd rs1 : RegId) (imm : Word) : Statement (.srli rd rs1 imm) := placeShamt_row (by decide) rd rs1 imm
theorem srai (rd rs1 : RegId) (imm : Word) : Statement (.srai rd rs1 imm) := placeShamt_row (by decide) rd rs1 imm
theorem nop : Statement .nop := rfl
theorem add (rd rs1 rs2 : RegId) : Statement (.add rd rs1 rs2) :=
  placeFields_and_opcode_functs 0x00000033 rd rs1 (rs2.setWidth 32) (by simp; omega)

end Sys2Proof.Laws.RowMatch
end

