-- ==== Sys2Proof/Tests/Slice0.lean ====
section
/-! SUPPORT. Tests of the model against values the spec gives, and for every statement with hypotheses a witness that
meets them. Every expected value is the spec's: the tables of 95_test_vectors.md (V, W, X, T, S, H, P rows), the rules'
own examples, or a word written out from an encoding column. -/

namespace Sys2Proof.Tests

open Sys2Proof Sys2Proof.Machine

/-! ### Helpers -/

/-- The state after a step, where there is one. -/
def nextOf (o : Host.Outcome State Fault Refusal) : Option State :=
  match o with
  | .next s => some s
  | _ => none

/-- The words an operation appends in the reset state. -/
def wordsOf (i : Instr) : Option (List Word) := (nextOf (exec i State.reset)).map State.words

def text (s : String) : List Byte := ascii s.toList

/-- A state with work behind it (a pass that failed) and one request before it. -/
def asks (r : Request) : State :=
  { State.reset with
    pass := ⟨.failed, text "foo\n", [], [], some (.parse 1)⟩, luIn := ⟨11, 1, 2, 3, 4⟩, requests := [r] }

/-- What the host observes of a pass (R196) with the given draws. -/
def observed (input : String) (rdFail : Bool) (wrFail : Option Nat) :
    Option (Phase × List Byte × Option ErrorRecord) :=
  (nextOf (step (asks (.pass (text input) rdFail wrFail)))).map State.observation

/-! ### Well-formedness: each check refuses an ill-formed term -/

theorem test_wf_refuses_wide_immediates :
    [Instr.addi 1 0 2048, .slti 1 0 4096, .sltiu 1 0 4095, .andi 1 0 0x800, .ori 1 0 0xFFFFF7FF, .xori 1 0 0x7FFFFFFF].all
      (fun i => !i.wf) = true := by decide
theorem test_wf_refuses_wide_shift_amounts :
    [Instr.slli 1 2 32, .srli 1 2 33, .srai 1 2 0xFFFFFFFF].all (fun i => !i.wf) = true := by decide
theorem test_wf_refuses_the_second_spelling_of_nop : (Instr.addi 0 0 0).wf = false := by decide
theorem test_wf_admits_the_domain_ends :
    [Instr.addi 0 0 1, .addi 1 0 0, .addi 0 1 0, .slti 1 0 2047, .sltiu 1 0 (-2048), .andi 1 0 (-1), .ori 31 31 2047,
      .xori 0 0 0, .slli 1 2 31, .srli 1 2 0, .srai 1 2 31, .nop, .add 0 0 0].all Instr.wf = true := by decide

/-! ### Decoding: words written out field by field from the encoding column of the opcode table -/

theorem test_decode_addi :
    decodeTableWord 32 (0b000000000001#12 ++ 0b00000#5 ++ 0b000#3 ++ 0b01010#5 ++ 0b0010011#7).toNat
      = some (.addi 10 0 1) := by decide
theorem test_decode_slti :
    decodeTableWord 32 (0b000000000010#12 ++ 0b01010#5 ++ 0b010#3 ++ 0b01011#5 ++ 0b0010011#7).toNat
      = some (.slti 11 10 2) := by decide
theorem test_decode_sltiu :
    decodeTableWord 32 (0b111111111111#12 ++ 0b01010#5 ++ 0b011#3 ++ 0b01100#5 ++ 0b0010011#7).toNat
      = some (.sltiu 12 10 (-1)) := by decide
theorem test_decode_andi :
    decodeTableWord 32 (0b000011111111#12 ++ 0b01010#5 ++ 0b111#3 ++ 0b01101#5 ++ 0b0010011#7).toNat
      = some (.andi 13 10 255) := by decide
theorem test_decode_ori :
    decodeTableWord 32 (0b100000000000#12 ++ 0b01010#5 ++ 0b110#3 ++ 0b01110#5 ++ 0b0010011#7).toNat
      = some (.ori 14 10 (-2048)) := by decide
theorem test_decode_xori :
    decodeTableWord 32 (0b011111111111#12 ++ 0b01010#5 ++ 0b100#3 ++ 0b01111#5 ++ 0b0010011#7).toNat
      = some (.xori 15 10 2047) := by decide
theorem test_decode_slli :
    decodeTableWord 32 (0b0000000#7 ++ 0b11111#5 ++ 0b01010#5 ++ 0b001#3 ++ 0b10000#5 ++ 0b0010011#7).toNat
      = some (.slli 16 10 31) := by decide
theorem test_decode_srli :
    decodeTableWord 32 (0b0000000#7 ++ 0b00001#5 ++ 0b01010#5 ++ 0b101#3 ++ 0b10001#5 ++ 0b0010011#7).toNat
      = some (.srli 17 10 1) := by decide
theorem test_decode_srai :
    decodeTableWord 32 (0b0100000#7 ++ 0b00001#5 ++ 0b01010#5 ++ 0b101#3 ++ 0b00101#5 ++ 0b0010011#7).toNat
      = some (.srai 5 10 1) := by decide
theorem test_decode_nop :
    decodeTableWord 32 (0b000000000000#12 ++ 0b00000#5 ++ 0b000#3 ++ 0b00000#5 ++ 0b0010011#7).toNat
      = some .nop := by decide
theorem test_decode_add :
    decodeTableWord 32 (0b0000000#7 ++ 0b01011#5 ++ 0b01010#5 ++ 0b000#3 ++ 0b00110#5 ++ 0b0110011#7).toNat
      = some (.add 6 10 11) := by decide

/-- Words of no row: 0 (R244), a shift row with another funct7, an add row with funct7 of `sub`, a LOAD (R76). -/
theorem test_decode_rejects_words_of_no_row :
    [0x00000000#32, 0x40311093#32, 0x80115093#32, 0x403100B3#32, 0xFFC12283#32].all
      (fun w => decodeWord w == .rejected .noRow) = true := by decide
theorem test_decode_rejects_fewer_than_four_bytes : decode [0x13, 0x00, 0x00] = .rejected .truncated := by decide

/-! ### The operations: W rows of 95_test_vectors.md section 3 -/

theorem test_addi : wordsOf (.addi 1 0 5) = some [0x00500093] ∧ wordsOf (.addi 10 10 2048) = some [0x80050513] := by
  decide
theorem test_addi_truncates : wordsOf (.addi 10 10 4096) = some [0x00050513] ∧
    wordsOf (.addi 5 5 4101) = some [0x00528293] := by decide
theorem test_slti : wordsOf (.slti 5 6 100) = some [0x06432293] ∧ wordsOf (.slti 5 6 0xFFF) = some [0xFFF32293] := by
  decide
theorem test_sltiu : wordsOf (.sltiu 5 6 1) = some [0x00133293] ∧ wordsOf (.sltiu 31 0 4095) = some [0xFFF03F93] := by
  decide
theorem test_andi : wordsOf (.andi 10 11 255) = some [0x0FF5F513] ∧ wordsOf (.andi 10 11 0) = some [0x0005F513] := by
  decide
theorem test_ori : wordsOf (.ori 10 11 0x800) = some [0x8005E513] ∧ wordsOf (.ori 2 2 1) = some [0x00116113] := by decide
theorem test_xori : wordsOf (.xori 10 11 4095) = some [0xFFF5C513] ∧ wordsOf (.xori 27 8 7) = some [0x00744D93] := by
  decide
theorem test_slli : wordsOf (.slli 1 2 31) = some [0x01F11093] ∧ wordsOf (.slli 1 2 33) = some [0x00111093] := by decide
theorem test_srli : wordsOf (.srli 1 2 31) = some [0x01F15093] ∧ wordsOf (.srli 1 2 1) = some [0x00115093] := by decide
theorem test_srai : wordsOf (.srai 1 2 31) = some [0x41F15093] ∧ wordsOf (.srai 1 2 32) = some [0x40015093] := by decide
theorem test_nop : wordsOf .nop = some [0x00000013] := by decide
theorem test_add : wordsOf (.add 10 11 12) = some [0x00C58533] ∧ wordsOf (.add 31 31 31) = some [0x01FF8FB3] := by decide

/-- W36 to W40. -/
theorem test_direct_lowering :
    lower ⟨9, 5, 6, 7, 0xFFFFFFFF⟩ = ⟨0x00000013, none⟩ ∧ lower ⟨10, 10, 11, 12, 0x12345678⟩ = ⟨0x00C58533, none⟩ ∧
    lower ⟨0, 1, 0, 31, 5⟩ = ⟨0x00500093, none⟩ ∧ lower ⟨11, 0, 0, 0, 0⟩ = ⟨0, some (.unsupported 11)⟩ ∧
    lower ⟨15, 1, 2, 3, 4⟩ = ⟨0, some (.unsupported 15)⟩ := by decide

/-! ### The format codec: V rows of section 2.1, words of 2.2, X rows of 2.4, steps of P5 -/

theorem test_encode_r : encodeRecord (.r 0b0110011 10 0 11 12 0) = 0x00C58533 ∧
    encodeRecord (.r 0b0110011 1 0b101 2 3 0b0100000) = 0x403150B3 := by decide
theorem test_encode_i : encodeRecord (.i 0b0000011 5 0b010 2 (-4)) = 0xFFC12283 ∧
    encodeRecord (.i 0b0010011 1 0 0 2048) = 0x80000093 := by decide
theorem test_encode_s : encodeRecord (.s 0b0100011 0b010 2 5 (-4)) = 0xFE512E23 ∧
    encodeRecord (.s 0b0100011 0 0 0 32) = 0x02000023 := by decide
theorem test_encode_sb : encodeRecord (.sb 0b1100011 0 1 2 2048) = 0x002080E3 ∧
    encodeRecord (.sb 0b1100011 0 1 2 7) = 0x00208363 := by decide
theorem test_encode_u : encodeRecord (.u 0b0110111 5 0x12345678) = 0x123452B7 ∧
    encodeRecord (.u 0b0010111 0 0x7FFFF000) = 0x7FFFF017 := by decide
theorem test_encode_uj : encodeRecord (.uj 0b1101111 1 2048) = 0x001000EF ∧
    encodeRecord (.uj 0b1101111 0 1048576) = 0x8000006F := by decide

/-- The row of 0xDEADBEEF. -/
theorem test_decode_an_arbitrary_word :
    decodeRecord .r 0xDEADBEEF = .r 0b1101111 29 0b011 27 10 0b1101111 ∧
    decodeRecord .i 0xDEADBEEF = .i 0b1101111 29 0b011 27 (-534) ∧
    decodeRecord .s 0xDEADBEEF = .s 0b1101111 0b011 27 10 (-515) ∧
    decodeRecord .sb 0xDEADBEEF = .sb 0b1101111 0b011 27 10 (-516) ∧
    decodeRecord .u 0xDEADBEEF = .u 0b1101111 29 0xDEADB000 ∧
    decodeRecord .uj 0xDEADBEEF = .uj 0b1101111 29 (-150038) := by decide

/-- The immediates of every format, in the order I, S, SB, U, UJ, for the rows that isolate a bit or a sign. -/
theorem test_decode_immediates :
    (let imms := fun w => [Format.i, .s, .sb, .u, .uj].map fun f => (decodeRecord f w).imm
     imms 0xFFFFFFFF = [-1, -1, -2, 0xFFFFF000, -2] ∧
     imms 0x80000000 = [-2048, -2048, -4096, 0x80000000, -1048576] ∧
     imms 0x7FFFFFFF = [2047, 2047, 4094, 0x7FFFF000, 1048574] ∧
     imms 0x00000F80 = [0, 31, 2078, 0, 0] ∧
     imms 0x000FF000 = [0, 0, 0, 0x000FF000, 1044480] ∧
     imms 0x00100000 = [1, 0, 0, 0x00100000, 2048]) := by decide

/-- X1 to X5. -/
theorem test_reserved_formats :
    encodePorts ⟨6, 1, 2, 3, 4, 5, 6, 7⟩ = ⟨0, some (.fmt 6)⟩ ∧
    decodePorts ⟨6, 0xFFFFFFFF⟩ = ⟨0, 0, 0, 0, 0, 0, 0, some (.fmt 6)⟩ ∧
    decodePorts ⟨7, 0x00500093⟩ = ⟨0, 0, 0, 0, 0, 0, 0, some (.fmt 7)⟩ ∧
    encodePorts ⟨1, 0b0010011, 0, 0x7F, 1, 0, 31, 5⟩ = ⟨0x00500093, none⟩ := by decide

/-- P5, steps 1 to 7. -/
theorem test_direct_codec :
    encodePorts ⟨3, 0b1100011, 0b001, 0, 0, 10, 0, -8⟩ = ⟨0xFE051CE3, none⟩ ∧
    decodePorts ⟨3, 0xFE051CE3⟩ = ⟨0b1100011, 25, 0b001, 10, 0, 0b1111111, -8, none⟩ ∧
    encodePorts ⟨5, 0b1101111, 0, 0, 0, 0, 0, -12⟩ = ⟨0xFF5FF06F, none⟩ ∧
    (decodePorts ⟨5, 0xFF5FF06F⟩).imm = -12 ∧
    encodePorts ⟨3, 0b1100011, 0, 0, 0, 1, 2, 4097⟩ = ⟨0x80208063, none⟩ ∧
    encodePorts ⟨2, 0b0100011, 0b010, 0, 0, 2, 10, 8⟩ = ⟨0x00A12423, none⟩ ∧
    encodePorts ⟨4, 0b0110111, 0, 0, 10, 0, 0, 0x00012000⟩ = ⟨0x00012537, none⟩ := by decide

/-- Columns SB and UJ of the table of R70, copied row by row. -/
theorem test_scatter_columns :
    (List.range 32).map (scatter .sb) =
      [.zero, .word 8, .word 9, .word 10, .word 11, .word 25, .word 26, .word 27, .word 28, .word 29, .word 30, .word 7,
       .word 31] ++ List.replicate 19 .sign ∧
    (List.range 32).map (scatter .uj) =
      [.zero, .word 21, .word 22, .word 23, .word 24, .word 25, .word 26, .word 27, .word 28, .word 29, .word 30,
       .word 20, .word 12, .word 13, .word 14, .word 15, .word 16, .word 17, .word 18, .word 19, .word 31] ++
      List.replicate 11 .sign := by decide

/-! ### Names, literals and lines: E5 and the T rows of section 4 -/

theorem test_names : regOf (text "sp") = some 2 ∧ regOf (text "s11") = some 27 ∧ regOf (text "x31") = some 31 ∧
    regOf (text "x01") = none ∧ regOf (text "x32") = none ∧ regOf (text "X1") = none ∧ regNames.length = 65 := by decide

/-- T1 to T8, T39, T42, T43, W8 and W22, under either reading of large literals. -/
theorem test_lines_with_an_immediate :
    [LitOvf.reduce, .reject].all (fun p =>
      ["addi x1, x0, 5", "addi x1,x0,5", "addi\tx1,\tx0,\t5", "addi  x1, x0, 5   ", "addi x1, x0, 005"].all
        (fun l => parseLine p (text l) == some ⟨0, 1, 0, 0, 5⟩) &&
      parseLine p (text "addi x1, x0, 0x00F") == some ⟨0, 1, 0, 0, 15⟩ &&
      parseLine p (text "addi x1, x0, 0xAbC") == some ⟨0, 1, 0, 0, 2748⟩ &&
      parseLine p (text "addi fp, s0, 1") == some ⟨0, 8, 8, 0, 1⟩ &&
      parseLine p (text "addi t0, t0, 0x1005") == some ⟨0, 5, 5, 0, 4101⟩ &&
      parseLine p (text "slli x1, x2, 32") == some ⟨6, 1, 2, 0, 32⟩) = true := by decide

/-- T9 to T11, T31, T32, W34. -/
theorem test_lines_with_other_mnemonics :
    [LitOvf.reduce, .reject].all (fun p =>
      parseLine p (text "nop  ") == some ⟨9, 0, 0, 0, 0⟩ && parseLine p (text "add x1,x2,x3") == some ⟨10, 1, 2, 3, 0⟩ &&
      parseLine p (text "sltiu x1, x0, 5") == some ⟨2, 1, 0, 0, 5⟩ &&
      parseLine p (text "slti x1, x0, 5") == some ⟨1, 1, 0, 0, 5⟩ &&
      parseLine p (text "add fp, s0, x8") == some ⟨10, 8, 8, 8, 0⟩) = true := by decide

/-- T12 to T30, T33 to T38, T40, T41. -/
theorem test_lines_refused :
    [" addi x1, x0, 5", "addi x1 , x0, 5", "addi x1, x0, -1", "addi x1, x0, +1", "addi x1, x0, 0x", "addi x1, x0, 0X10",
      "ADDI x1, x0, 5", "addi X1, x0, 5", "addi x1, x0, 5\r", "addi x1, x0, 5 # c", "addi x01, x0, 5",
      "addi x32, x0, 5", "addi x1, x0, x2", "add x1, x0, 5", "nop x1", "addi x1, x0", "addi x1, x0, 5, 6",
      "addx1, x0, 5", "addix1, x0, 5", "li x1, 5", "mv x1, x2", "", "   ", "loop: nop", ".text", "sub x1, x2, x3",
      "lui x1, 5"].all (fun l => parseLine .reduce (text l) == none) = true := by decide

/-- The literal range of section 4. -/
theorem test_large_literals :
    parseLine .reduce (text "addi x1, x0, 4294967296") = some ⟨0, 1, 0, 0, 0⟩ ∧
    parseLine .reject (text "addi x1, x0, 4294967296") = none ∧
    parseLine .reduce (text "addi x1, x0, 4294967295") = some ⟨0, 1, 0, 0, 4294967295⟩ ∧
    parseLine .reject (text "addi x1, x0, 4294967295") = some ⟨0, 1, 0, 0, 4294967295⟩ := by decide

theorem test_lines_of_inputs : linesOf (text "") = [] ∧ linesOf (text "\n") = [[]] ∧
    linesOf (text "a\n\nb") = [text "a", [], text "b"] ∧ linesOf (text "a\nb\n") = [text "a", text "b"] := by decide

/-! ### Passes: S and H rows of section 5, P1, P4 -/

/-- S1, S2, S4, S5. -/
theorem test_passes :
    observed "" false none = some (.done, [], none) ∧
    observed "\n" false none = some (.failed, [], some (.parse 1)) ∧
    observed "addi x1, x0, 5" false none = some (.done, [0x93, 0x00, 0x50, 0x00], none) ∧
    observed "addi x1, x0, 5\nnop\n" false none =
      some (.done, [0x93, 0x00, 0x50, 0x00, 0x13, 0x00, 0x00, 0x00], none) := by decide

/-- S6, S8, S9. -/
theorem test_passes_that_fail_to_parse :
    observed "addi x1, x0, 5\n\nnop\n" false none = some (.failed, [], some (.parse 2)) ∧
    observed "nop\nnop\nfoo x1, x2, 3\nbar\n" false none = some (.failed, [], some (.parse 3)) ∧
    observed "add a0, a1, a2\r\n" false none = some (.failed, [], some (.parse 1)) := by decide

/-- H2, H6, H7. -/
theorem test_host_failures_in_stage_order :
    observed "bogus\n" true none = some (.failed, [], some (.ioRead .read)) ∧
    observed "nop\nfoo\n" false (some 3) = some (.failed, [], some (.parse 2)) ∧
    observed "" false (some 0) = some (.failed, [], some (.ioWrite .write 0)) := by decide

/-- H4, H5. -/
theorem test_host_write_failures :
    observed "addi x1, x0, 5\nnop\n" false (some 5) =
      some (.failed, [0x93, 0x00, 0x50, 0x00, 0x13], some (.ioWrite .write 5)) ∧
    observed "addi x1, x0, 5\nnop\n" false (some 8) =
      some (.failed, [0x93, 0x00, 0x50, 0x00, 0x13, 0x00, 0x00, 0x00], some (.ioWrite .write 8)) := by decide

/-- P1: the whole end state. -/
theorem test_program_P1 :
    (nextOf (step (asks (.pass (text "addi x1, x0, 5\naddi x2, x1, 0x10\nadd x3, x1, x2\n") false none)))).map State.pass =
      some ⟨.done, text "addi x1, x0, 5\naddi x2, x1, 0x10\nadd x3, x1, x2\n",
        [⟨0, 1, 0, 0, 5⟩, ⟨0, 2, 1, 0, 16⟩, ⟨10, 3, 1, 2, 0⟩],
        [0x93, 0x00, 0x50, 0x00, 0x13, 0x81, 0x00, 0x01, 0xB3, 0x81, 0x20, 0x00], none⟩ := by decide

/-- P4: the list is not set when a line fails. -/
theorem test_program_P4 :
    (nextOf (step (asks (.pass (text "addi x1, x0, 1\nadd x2, x1, x1\naddi x3, x2, -1\nnop\n") false none)))).map State.pass =
      some ⟨.failed, text "addi x1, x0, 1\nadd x2, x1, x1\naddi x3, x2, -1\nnop\n", [], [], some (.parse 3)⟩ := by decide

/-- Section 6. -/
theorem test_bytes : bytesOfWord 0x12345678 = [0x78, 0x56, 0x34, 0x12] ∧
    bytesOfWord 0x40155293 = [0x93, 0x52, 0x15, 0x40] := by decide

/-- R210. -/
theorem test_error_codes :
    [none, some (.ioRead .read), some (.ioWrite .write 5), some (.parse 1), some (.unsupported 11), some (.fmt 6)].map
      errorCode = [0, 1, 2, 3, 4, 5] := by decide

/-- A placed word runs as the first operation from reset (program P2, line 9). -/
theorem test_placed_word_runs_from_reset :
    (nextOf (step (State.reset.withFetchWord 32 0x40155293))).map State.observation =
      some (.done, [0x93, 0x52, 0x15, 0x40], none) := by decide

/-! ### Witnesses: each statement's hypotheses hold together somewhere, each clause at an end of its range -/

def samplePass : Request := .pass (text "addi x1, x0, 5\nnop\n") false none
def sampleProg : List Op := [⟨0, 1, 0, 0, 5⟩, ⟨9, 0, 0, 0, 0⟩]

theorem sample_parses : parse Config.litOvf (text "addi x1, x0, 5\nnop\n") = .ok sampleProg := by decide

theorem test_witness_ResetWritesThePassStateAndNothingElse :
    (asks .reset).requests = .reset :: [] ∧ (asks .reset).pass ≠ PassState.reset := by decide

theorem test_witness_DirectUseDrivesOnePortAndNoPassState :
    (asks (.encode ⟨6, 1, 2, 3, 4, 5, 6, 7⟩)).requests = .encode ⟨6, 1, 2, 3, 4, 5, 6, 7⟩ :: [] ∧
    (asks (.decode ⟨5, 0xFF5FF06F⟩)).requests = .decode ⟨5, 0xFF5FF06F⟩ :: [] ∧
    (asks (.lower ⟨11, 0, 0, 0, 0⟩)).requests = .lower ⟨11, 0, 0, 0, 0⟩ :: [] ∧ State.reset.requests = [] := by decide

theorem test_witness_EveryErrorIsAFinalStateAndNoMissingStep :
    (asks (.pass (text "foo") false (some 9))).requests = .pass (text "foo") false (some 9) :: [] ∧
    WriteDrawLegal Config.litOvf (text "foo") (some 9) := by
  refine ⟨rfl, fun j prog hj hp => ?_⟩
  rw [show parse Config.litOvf (text "foo") = .fail 1 by decide] at hp
  cases hp

theorem test_witness_EncoderPortsLayOutEachFormat :
    [0, 1, 2, 3, 4, 5].map (fun f => (EncIn.mk f 1 2 3 4 5 6 7).fmt) = [0#3, 1, 2, 3, 4, 5] := by decide

theorem test_witness_DecoderPortsDriveSharedFieldsInEveryFormat :
    (DecIn.mk 5 0xFF5FF06F).fmt.toNat ≤ 5 ∧ (DecIn.mk 0 0xFFFFFFFF).fmt.toNat ≤ 5 ∧ (DecIn.mk 0 0xFFFFFFFF).fmt = 0 := by
  decide

/-- First and third clause: bit 0 of an I record, bit 31 of a U record, a dropped bit, an extended bit. Second clause:
another value that agrees on every stored bit. -/
theorem test_witness_ScatterTableGovernsEveryImmediateBit :
    0 < 32 ∧ scatter (FormatRecord.i 1 2 3 4 5).format 0 = .word 20 ∧
    31 < 32 ∧ scatter (FormatRecord.u 1 2 3).format 31 = .word 31 ∧
    scatter .sb 0 = .zero ∧ scatter .uj 31 = .sign ∧
    ∀ i n, i < 32 → scatter (FormatRecord.sb 1 2 3 4 6).format i = .word n →
      (7 : Word).getLsbD i = (FormatRecord.sb 1 2 3 4 6).imm.getLsbD i := by
  refine ⟨by decide, rfl, by decide, rfl, rfl, rfl, fun i n hi h => ?_⟩
  have h0 : i ≠ 0 := fun e => by subst e; simp [FormatRecord.format, scatter] at h
  interval_cases i <;> first | exact absurd rfl h0 | rfl

theorem test_witness_DecodeAfterEncodeGivesTheRecord :
    immDomain (FormatRecord.r 1 2 3 4 5 6).format (FormatRecord.r 1 2 3 4 5 6).imm ∧
    immDomain (FormatRecord.i 1 2 3 4 (-2048)).format (-2048) ∧ immDomain (FormatRecord.s 1 2 3 4 2047).format 2047 ∧
    immDomain (FormatRecord.sb 1 2 3 4 (-4096)).format (-4096) ∧ immDomain (FormatRecord.u 1 2 0x80000000).format 0x80000000 ∧
    immDomain (FormatRecord.uj 1 2 1048574).format 1048574 := by
  refine ⟨rfl, ?_, ?_, ?_, ?_, ?_⟩ <;> simp only [FormatRecord.format, immDomain] <;> decide

theorem test_witness_WordBit31IsTheSignOfTheImmediate :
    Format.uj ≠ .r ∧ (0x80000000 : Word).getLsbD 31 = true ∧ (0x7FFFFFFF : Word).getLsbD 31 = false := by decide

/-- The first and the last stored bit of a format, the last being the sign. -/
theorem test_witness_EachStoredImmediateBitIsIndependent :
    1 < 32 ∧ scatter .uj 1 = .word 21 ∧ 20 < 32 ∧ scatter .uj 20 = .word 31 ∧ 20 = signBit .uj ∧
    31 < 32 ∧ scatter .u 31 = .word 31 ∧ 31 = signBit .u ∧ 1 ≠ signBit .uj := by decide

theorem test_witness_OnlyReservedFormatSelectorsFail :
    6 ≤ (EncIn.mk 6 1 2 3 4 5 6 7).fmt.toNat ∧ 6 ≤ (DecIn.mk 7 8).fmt.toNat ∧
    (EncIn.mk 5 1 2 3 4 5 6 7).fmt.toNat ≤ 5 ∧ (DecIn.mk 0 8).fmt.toNat ≤ 5 := by decide

theorem test_witness_GeneralLoweringAgreesWithEachOperation :
    instrOfOp ⟨0, 1, 0, 31, 5⟩ = some (.addi 1 0 5) ∧ instrOfOp ⟨10, 10, 11, 12, 7⟩ = some (.add 10 11 12) := by decide

theorem test_witness_OnlyUnmappedSelectorsAreUnsupported :
    11 ≤ (Op.mk 11 1 2 3 4).op.toNat ∧ 11 ≤ (Op.mk 15 1 2 3 4).op.toNat ∧ (Op.mk 10 1 2 3 4).op.toNat ≤ 10 ∧
    parseLine .reject (text "add a0, a1, a2") = some ⟨10, 10, 11, 12, 0⟩ := by decide

/-- Two inputs that differ in what the operation ignores, for the last immediate operation, `nop` and `add`. -/
theorem test_witness_IgnoredInputsDoNotReachTheWord :
    (let a := Op.mk 8 1 2 3 4; let b := Op.mk 8 1 2 30 4
     a ≠ b ∧ a.op = b.op ∧ a.op.toNat ≤ 8 ∧ a.rd = b.rd ∧ a.rs1 = b.rs1 ∧ a.imm = b.imm) ∧
    (let a := Op.mk 9 1 2 3 4; let b := Op.mk 9 5 6 7 8
     a ≠ b ∧ a.op = b.op ∧ a.op = 9) ∧
    (let a := Op.mk 10 1 2 3 4; let b := Op.mk 10 1 2 3 5
     a ≠ b ∧ a.op = b.op ∧ a.op = 10 ∧ a.rd = b.rd ∧ a.rs1 = b.rs1 ∧ a.rs2 = b.rs2) := by decide

/-- Magnitudes at both sides of the change of sign, and past the field. -/
theorem test_witness_MagnitudesAreReinterpretedAsSigned :
    (Op.mk 5 1 2 0 2047).op.toNat ≤ 5 ∧ (Op.mk 5 1 2 0 2047).imm = BitVec.ofNat 32 2047 ∧ 2047 % 4096 < 2048 ∧
    (Op.mk 0 1 2 0 2048).op.toNat ≤ 5 ∧ (Op.mk 0 1 2 0 2048).imm = BitVec.ofNat 32 2048 ∧ ¬ 2048 % 4096 < 2048 ∧
    (Op.mk 0 1 2 0 5).imm = BitVec.ofNat 32 4294967301 := by decide

theorem test_witness_NoOperationLowersToZero : (lower ⟨9, 0, 0, 0, 0⟩).err = none := by decide

theorem test_witness_DecodeEncodeGivesTheOperation :
    (Instr.addi 0 0 (-2048)).wf = true ∧ (Instr.xori 31 31 2047).wf = true ∧ (Instr.srai 31 0 31).wf = true ∧
    Instr.nop.wf = true ∧ (Instr.add 31 31 31).wf = true := by decide

theorem test_witness_EncodeDecodeGivesTheWord :
    decodeWord 0x80056713 = .instr (.ori 14 10 (-2048)) ∧ decodeWord 0x00000013 = .instr .nop := by decide

theorem test_witness_RegOfIsDefinedExactlyOnTheNames :
    regOf (text "x31") = some 31 ∧ text "x31" = nameOf 31 ∧
    regOf (text "t6") = some 31 ∧ text "t6" = ascii "t6".toList ∧ regOf (text "fp") = some 8 ∧
    nameOf 8 = nameOf 8 := by decide

/-- Each clause at an end of its range: the largest 32-bit value and the first beyond, both hex cases, a mixed literal. -/
theorem test_witness_LiteralsDenoteTheirMagnitude :
    literalValue (text "0xAbC") = some 2748 ∧ 4294967295 < 2 ^ 32 ∧ 2 ^ 32 ≤ 4294967296 ∧
    literalValue (ascii ['0', 'x'] ++ text "Ab") = some 171 ∧ 15 < 16 ∧
    Literal (text "007") 7 ∧ (text "007").take 2 ≠ ascii ['0', 'x'] := by
  refine ⟨by decide, by decide, by decide, by decide, by decide, ?_, by decide⟩
  exact Literal.decimal (text "007") (by decide) (by decide)

/-- R169: leading zeros in both bases, `007` and `0x000F`; hex letters of either case. -/
theorem test_literals : literalValue (text "007") = some 7 ∧ literalValue (text "0x000F") = some 15 ∧
    literalValue (text "0xdeadbeef") = some 0xDEADBEEF ∧ hexadecimal true 7 0xDEADBEEF = text "DEADBEEF" ∧
    hexadecimal false 7 4095 = text "fff" := by decide

theorem test_witness_LinesAreThePiecesBetweenNewlines :
    (∀ l ∈ [text "nop", [], text "add"], newline ∉ l) ∧ newline ∉ text "x" ∧ text "x" ≠ [] := by decide

theorem sample_isLine : IsLine .reject (text "addi x1, x0, 5 ") ⟨0, 1, 0, 0, 5⟩ := by
  refine ⟨text "addi x1, x0, 5", text " ", by decide, by simp [Blanks, text, ascii], ?_⟩
  exact Statement.immediate (text "addi") (text " x1, x0, ") (text "5") 0 1 0 5 5 (by decide) (by decide)
    (TwoRegs.mk (text " ") (text "x1") (text " ") (text "x0") (text " ") 1 0 (by decide) (by simp [Blanks, text, ascii])
      (by decide) (by simp [Blanks, text, ascii]) (by decide) (by simp [Blanks, text, ascii]))
    (Literal.decimal (text "5") (by decide) (by decide)) (by decide)

theorem test_witness_ParserAcceptsExactlyTheGrammar :
    IsLine .reject (text "addi x1, x0, 5 ") ⟨0, 1, 0, 0, 5⟩ ∧
    parseLine .reject (text "addi x1, x0, 5 ") = some ⟨0, 1, 0, 0, 5⟩ := ⟨sample_isLine, by decide⟩

theorem test_witness_TheGrammarIsUnambiguous :
    IsLine .reject (text "addi x1, x0, 5 ") ⟨0, 1, 0, 0, 5⟩ ∧ IsLine .reject (text "addi x1, x0, 5 ") ⟨0, 1, 0, 0, 5⟩ :=
  ⟨sample_isLine, sample_isLine⟩

/-- A list, a failure in the middle, and the empty input. -/
theorem test_witness_ParseGivesTheListOrTheFirstFailingLine :
    parse .reduce (text "nop\nnop") = .ok [⟨9, 0, 0, 0, 0⟩, ⟨9, 0, 0, 0, 0⟩] ∧
    parse .reduce (text "nop\n\nfoo\n") = .fail 2 := by decide

theorem test_witness_NamesOfOneRegisterAreIndistinguishable :
    regOf (text "x2") = some 2 ∧ regOf (text "sp") = some 2 ∧ isDelim 0x20 = true ∧
    (∀ c ∈ (text ", sp, 1").head?, isDelim c = true) ∧
    (parseLine .reduce (text "addi" ++ [0x20] ++ text "x2" ++ text ", sp, 1")).isSome := by decide

theorem test_witness_OnlyGrammarBytesAreAccepted :
    parseLine .reject (text "andi\tx10 ,x1,0xFf") = none ∧
    parseLine .reject (text "andi\tx10,x1,0xFf") = some ⟨3, 10, 1, 0, 255⟩ := by decide

theorem test_witness_CanonicalSpellingParsesToTheSameOperation :
    parseLine .reduce (text "addi sp,sp,0x10") = some ⟨0, 2, 2, 0, 16⟩ ∧ spell (.addi 2 2 16) = text "addi x2, x2, 16" := by
  decide

theorem test_witness_StepRunsTheParsedOperations :
    (asks samplePass).requests = .pass (text "addi x1, x0, 5\nnop\n") false none :: [] ∧
    parse Config.litOvf (text "addi x1, x0, 5\nnop\n") = .ok sampleProg ∧
    sampleProg.map instrOfOp = [Instr.addi 1 0 5, .nop].map some := ⟨rfl, sample_parses, by decide⟩

theorem test_witness_StepRunsTheOperationOfAPlacedWord : decodeTableWord 32 0x40155293 = some (.srai 5 10 1) := by decide

theorem test_witness_AssemblingADecodedWordGivesTheWordBack :
    decodeTableWord 32 (0xFFF53613 : Word).toNat = some (.sltiu 12 10 (-1)) := by decide

/-- The last draw a host may make: a failure after all 4N bytes. -/
theorem test_witness_PassReturnsWhatItsPseudocodeReturns :
    (asks (.pass (text "addi x1, x0, 5\nnop\n") false (some 8))).requests =
      .pass (text "addi x1, x0, 5\nnop\n") false (some 8) :: [] ∧
    WriteDrawLegal Config.litOvf (text "addi x1, x0, 5\nnop\n") (some 8) := by
  refine ⟨rfl, fun j prog hj hp => ?_⟩
  rw [sample_parses] at hp
  cases hj; cases hp; decide

theorem test_witness_ReadFailureEndsThePassFirst :
    (asks (.pass (text "bogus\n") true (some 0))).requests = .pass (text "bogus\n") true (some 0) :: [] := rfl

theorem test_witness_ParseAndLoweringFailuresEmitNoByte :
    (asks (.pass (text "nop\nfoo\n") false (some 3))).requests = .pass (text "nop\nfoo\n") false (some 3) :: [] ∧
    parse Config.litOvf (text "nop\nfoo\n") = .fail 2 ∧
    State.reset.pass.outbuf = [] ∧ ∃ o ∈ [Op.mk 9 0 0 0 0, .mk 11 0 0 0 0], 11 ≤ o.op.toNat := by
  refine ⟨rfl, by decide, rfl, ⟨11, 0, 0, 0, 0⟩, by simp, by decide⟩

theorem test_witness_SuccessfulPassEmitsFourBytesPerStatement :
    (asks samplePass).requests = .pass (text "addi x1, x0, 5\nnop\n") false none :: [] ∧
    parse Config.litOvf (text "addi x1, x0, 5\nnop\n") = .ok sampleProg ∧ sampleProg[1]? = some ⟨9, 0, 0, 0, 0⟩ ∧
    (asks (.pass [] false none)).requests = .pass [] false none :: [] := ⟨rfl, sample_parses, rfl, rfl⟩

/-- Draws at both ends, 0 and 4N. -/
theorem test_witness_WriteFailureLeavesExactlyThePrefix :
    (asks (.pass (text "addi x1, x0, 5\nnop\n") false (some 0))).requests =
      .pass (text "addi x1, x0, 5\nnop\n") false (some 0) :: [] ∧
    (asks (.pass (text "addi x1, x0, 5\nnop\n") false (some 8))).requests =
      .pass (text "addi x1, x0, 5\nnop\n") false (some 8) :: [] ∧
    (asks samplePass).requests = .pass (text "addi x1, x0, 5\nnop\n") false none :: [] ∧
    parse Config.litOvf (text "addi x1, x0, 5\nnop\n") = .ok sampleProg ∧
    0 ≤ 4 * sampleProg.length ∧ 8 ≤ 4 * sampleProg.length := ⟨rfl, rfl, rfl, sample_parses, by decide, by decide⟩

theorem test_witness_EveryPassEndsDoneOrFailed :
    (asks (.pass (text "foo") true (some 7))).requests = .pass (text "foo") true (some 7) :: [] := rfl

theorem test_witness_PassResultIsIndependentOfTheStateBefore :
    (asks samplePass).requests = samplePass :: [] ∧
    ({ State.reset with requests := [samplePass, .reset] } : State).requests = samplePass :: [.reset] := ⟨rfl, rfl⟩

theorem test_witness_FirstUnmappedOperationFailsThePass :
    (∀ a ∈ sampleProg, a.op.toNat ≤ 10) ∧ 11 ≤ (Op.mk 15 0 0 0 0).op.toNat := by decide

/-- A state a pass has left meets the invariant, and its next step is a pass. -/
theorem test_witness_EveryStepKeepsPassConsistency :
    (∃ s t : State, s.Inv ∧ s.pass.phase = .done ∧ step s = .next t ∧ t.pass.phase = .failed) := by
  refine ⟨{ State.reset with
      pass := ⟨.done, text "addi x1, x0, 5\nnop\n", sampleProg, intendedOutput sampleProg, none⟩,
      requests := [.pass (text "foo") false none] }, _, ⟨⟨rfl, sample_parses, rfl⟩, rfl⟩, rfl, rfl, ?_⟩
  decide

end Sys2Proof.Tests
end

section
/-! SUPPORT. One register name replaced by another of the same register (10_state.md R24): the two lines as a relation
that every piece of the parser keeps, so that the rest of the line is read the same from both. -/

namespace Sys2Proof.Machine

/-! ### Tokens and names -/

theorem token_before_delim {t : List Byte} {d : Byte} (ht : t.all (fun c => !isDelim c) = true)
    (hd : isDelim d = true) (u : List Byte) : token (t ++ d :: u) = t ∧ afterToken (t ++ d :: u) = d :: u :=
  token_of_append ht fun _ _ h => (List.cons.inj h).1 ▸ hd

theorem head_not_delim {c : Byte} {t : List Byte} (h : (c :: t).all (fun c => !isDelim c) = true) :
    isDelim c = false := by
  simpa using List.all_eq_true.1 h c List.mem_cons_self

theorem not_blank_of_not_delim {c : Byte} (h : isDelim c = false) : isBlank c = false := by
  simp_all [isDelim]

/-- A register name begins with a byte that ends no token. -/
theorem regName_head {n : List Byte} {id : RegId} (h : (n, id) ∈ regNames) :
    ∃ c q, n = c :: q ∧ isDelim c = false := by
  obtain ⟨hne, hall⟩ := regName_not_delim h
  obtain ⟨c, q, rfl⟩ := List.exists_cons_of_ne_nil hne
  exact ⟨c, q, rfl, head_not_delim hall⟩

/-- No register name is a literal or a mnemonic (42_parser.md R162). -/
theorem regName_not_literal_not_mnemonic {n : List Byte} {id : RegId} (h : (n, id) ∈ regNames) :
    literalValue n = none ∧ selectorOf n = none := by
  have : ∀ p ∈ regNames, literalValue p.1 = none ∧ selectorOf p.1 = none := by decide +kernel
  exact this _ h

/-- One continuation gives one answer after related answers, when it does not tell related values apart. -/
theorem bind_eq_of_rel {α β : Type} {R : α → α → Prop} {a b : Option α} {f : α → Option β} (h : Option.Rel R a b)
    (hf : ∀ x y, R x y → f x = f y) : a.bind f = b.bind f := by
  cases h with
  | none => rfl
  | some h => exact hf _ _ h

/-! ### The relation -/

/-- `v` is `u` with at most one token, a register name, replaced by a name of the same register. It follows the tokens:
the name is the first token, or it comes after a token and a delimiter. -/
inductive NameReplaced : List Byte → List Byte → Prop where
  | same (u : List Byte) : NameReplaced u u
  | here {n n' : List Byte} {id : RegId} {r : List Byte} : (n, id) ∈ regNames → (n', id) ∈ regNames →
      (∀ c q, r = c :: q → isDelim c = true) → NameReplaced (n ++ r) (n' ++ r)
  | later {t : List Byte} {d : Byte} {u v : List Byte} : t.all (fun c => !isDelim c) = true → isDelim d = true →
      NameReplaced u v → NameReplaced (t ++ d :: u) (t ++ d :: v)

namespace NameReplaced

variable {u v : List Byte}

/-- What stands before a delimiter, of however many tokens, does not matter. -/
theorem after_delim {d : Byte} (hd : isDelim d = true) (h : NameReplaced u v) (l : List Byte) :
    NameReplaced (l ++ d :: u) (l ++ d :: v) := by
  suffices ∀ t : List Byte, t.all (fun c => !isDelim c) = true →
      NameReplaced (t ++ (l ++ d :: u)) (t ++ (l ++ d :: v)) from this [] rfl
  induction l with
  | nil => exact fun t ht => .later ht hd h
  | cons c l ih =>
    intro t ht
    by_cases hc : isDelim c = true
    · exact .later ht hc (ih [] rfl)
    · simpa using ih (t ++ [c]) (by simpa [hc] using ht)

/-! ### The first token, and what follows it -/

/-- The first token stays, or it is the replaced name. -/
theorem first_token (h : NameReplaced u v) :
    token u = token v ∨ ∃ id, (token u, id) ∈ regNames ∧ (token v, id) ∈ regNames := by
  cases h with
  | same => exact .inl rfl
  | here hn hn' hr =>
    rw [(token_of_append (regName_not_delim hn).2 hr).1, (token_of_append (regName_not_delim hn').2 hr).1]
    exact .inr ⟨_, hn, hn'⟩
  | later ht hd => exact .inl ((token_before_delim ht hd _).1.trans (token_before_delim ht hd _).1.symm)

theorem after_token (h : NameReplaced u v) : NameReplaced (afterToken u) (afterToken v) := by
  cases h with
  | same => exact .same _
  | here hn hn' hr =>
    rw [(token_of_append (regName_not_delim hn).2 hr).2, (token_of_append (regName_not_delim hn').2 hr).2]
    exact .same _
  | later ht hd h =>
    rw [(token_before_delim ht hd _).2, (token_before_delim ht hd _).2]
    exact .later (t := []) rfl hd h

theorem regOf_token (h : NameReplaced u v) : regOf (token u) = regOf (token v) := by
  obtain h | ⟨id, hu, hv⟩ := h.first_token
  · rw [h]
  · rw [(regOf_eq_some_iff_mem _ _).2 hu, (regOf_eq_some_iff_mem _ _).2 hv]

theorem immOf_token (h : NameReplaced u v) (p : LitOvf) : immOf p (token u) = immOf p (token v) := by
  obtain h | ⟨id, hu, hv⟩ := h.first_token
  · rw [h]
  · rw [immOf, immOf, (regName_not_literal_not_mnemonic hu).1, (regName_not_literal_not_mnemonic hv).1]

theorem selectorOf_token (h : NameReplaced u v) : selectorOf (token u) = selectorOf (token v) := by
  obtain h | ⟨id, hu, hv⟩ := h.first_token
  · rw [h]
  · rw [(regName_not_literal_not_mnemonic hu).2, (regName_not_literal_not_mnemonic hv).2]

/-! ### Blanks and the comma -/

theorem drop_blanks (h : NameReplaced u v) : NameReplaced (u.dropWhile isBlank) (v.dropWhile isBlank) := by
  induction h with
  | same => exact .same _
  | here hn hn' hr =>
    obtain ⟨c, q, rfl, hc⟩ := regName_head hn
    obtain ⟨c', q', rfl, hc'⟩ := regName_head hn'
    simpa [not_blank_of_not_delim hc, not_blank_of_not_delim hc'] using here hn hn' hr
  | @later t d u v ht hd h ih =>
    have kept := later ht hd h
    cases t with
    | nil =>
      by_cases hb : isBlank d = true
      · simpa [hb] using ih
      · simpa [hb] using kept
    | cons c t => simpa [not_blank_of_not_delim (head_not_delim ht)] using kept

theorem isTrail_eq (h : NameReplaced u v) : isTrail u = isTrail v := by
  induction h with
  | same => rfl
  | here hn hn' hr =>
    obtain ⟨c, q, rfl, hc⟩ := regName_head hn
    obtain ⟨c', q', rfl, hc'⟩ := regName_head hn'
    simp [isTrail, not_blank_of_not_delim hc, not_blank_of_not_delim hc']
  | later ht hd h ih => simp_all [isTrail]

/-- The two are equal, or both go on after one byte, or both begin with a byte that ends no token. -/
theorem first_byte (h : NameReplaced u v) :
    u = v ∨ (∃ d u' v', u = d :: u' ∧ v = d :: v' ∧ NameReplaced u' v') ∨
      ∃ c u' c' v', u = c :: u' ∧ v = c' :: v' ∧ isDelim c = false ∧ isDelim c' = false := by
  cases h with
  | same => exact .inl rfl
  | here hn hn' hr =>
    obtain ⟨c, q, rfl, hc⟩ := regName_head hn
    obtain ⟨c', q', rfl, hc'⟩ := regName_head hn'
    exact .inr (.inr ⟨c, _, c', _, rfl, rfl, hc, hc'⟩)
  | @later t d u v ht hd h =>
    cases t with
    | nil => exact .inr (.inl ⟨d, u, v, rfl, rfl, h⟩)
    | cons c t => exact .inr (.inr ⟨c, _, c, _, rfl, rfl, head_not_delim ht, head_not_delim ht⟩)

/-- What `takeBlanks` and `takeComma` share: a function that cuts off a delimiter it asks for, and blanks after it,
answers alike. -/
theorem cut_rel {cut : List Byte → Option (List Byte)} {P : Byte → Prop} [DecidablePred P]
    (hcut : ∀ c cs, cut (c :: cs) = if P c then some (cs.dropWhile isBlank) else none)
    (hP : ∀ c, P c → isDelim c = true) (h : NameReplaced u v) : Option.Rel NameReplaced (cut u) (cut v) := by
  obtain rfl | ⟨d, u', v', rfl, rfl, h'⟩ | ⟨c, u', c', v', rfl, rfl, hc, hc'⟩ := h.first_byte
  · cases cut u with
    | none => exact .none
    | some w => exact .some (.same w)
  · by_cases hd : P d
    · simpa [hcut, hd] using h'.drop_blanks
    · simp [hcut, hd]
  · have no : ∀ c, isDelim c = false → ¬ P c := fun c hc hp => by simp [hP c hp] at hc
    simp [hcut, no c hc, no c' hc']

theorem takeBlanks_rel (h : NameReplaced u v) : Option.Rel NameReplaced (takeBlanks u) (takeBlanks v) :=
  h.cut_rel (fun _ _ => rfl) fun c hc => by simp [isDelim, hc]

theorem takeComma_rel (h : NameReplaced u v) : Option.Rel NameReplaced (takeComma u) (takeComma v) :=
  h.cut_rel (fun _ _ => rfl) fun c hc => by simp [isDelim, hc]

/-! ### Operands and lines -/

theorem takeReg_rel (h : NameReplaced u v) :
    Option.Rel (fun x y => x.1 = y.1 ∧ NameReplaced x.2 y.2) (takeReg u) (takeReg v) := by
  rw [takeReg, takeReg, h.regOf_token]
  cases regOf (token v) with
  | none => exact .none
  | some r => exact .some ⟨rfl, h.after_token⟩

theorem parseLast_eq (h : NameReplaced u v) (p : LitOvf) (op : BitVec 4) (rd rs1 : RegId) :
    parseLast p op rd rs1 u = parseLast p op rd rs1 v := by
  rw [parseLast, parseLast, h.after_token.isTrail_eq, h.regOf_token, h.immOf_token]

theorem parseOperands_eq (h : NameReplaced u v) (p : LitOvf) (op : BitVec 4) :
    parseOperands p op u = parseOperands p op v := by
  refine bind_eq_of_rel h.takeBlanks_rel fun u1 v1 h1 => ?_
  refine bind_eq_of_rel h1.takeReg_rel fun (rd, u2) (_, v2) ⟨hrd, h2⟩ => ?_
  cases hrd
  refine bind_eq_of_rel h2.takeComma_rel fun u3 v3 h3 => ?_
  refine bind_eq_of_rel h3.takeReg_rel fun (rs1, u4) (_, v4) ⟨hrs1, h4⟩ => ?_
  cases hrs1
  exact bind_eq_of_rel h4.takeComma_rel fun u5 v5 h5 => h5.parseLast_eq p op rd rs1

theorem parseLine_eq (h : NameReplaced u v) (p : LitOvf) : parseLine p u = parseLine p v := by
  rw [parseLine, parseLine, h.selectorOf_token, h.after_token.isTrail_eq]
  simp only [h.after_token.parseOperands_eq]

end NameReplaced

/-- Settles O37: the two lines differ by one replaced name, and every piece of the parser answers alike on such lines. -/
theorem namesOfOneRegisterAreIndistinguishable : Obligations.NamesOfOneRegisterAreIndistinguishable := by
  unfold Obligations.NamesOfOneRegisterAreIndistinguishable
  intro p n n' id l r d hn hn' hd hr
  have hname : NameReplaced (n ++ r) (n' ++ r) :=
    .here ((regOf_eq_some_iff_mem _ _).1 hn) ((regOf_eq_some_iff_mem _ _).1 hn')
      fun c q hq => hr c (by simp [hq])
  simpa using (hname.after_delim hd l).parseLine_eq p

end Sys2Proof.Machine
end

section
/-! SUPPORT. The bytes of a word as its base-256 digits, the least significant first (20_memory.md R43). -/

namespace Sys2Proof.Machine

/-- At `lo = 8k` this is byte `k` of R43, digit `k` of the word in base 256. -/
theorem toNat_byte_eq_digit (w : Word) (lo : Nat) : (w.extractLsb' lo 8).toNat = w.toNat / 2 ^ lo % 256 := by
  rw [BitVec.extractLsb'_toNat, Nat.shiftRight_eq_div_pow]

/-- Four digits are all there are, since a word is below `256 ^ 4`. -/
theorem toNat_eq_sum_of_bytes (w : Word) :
    w.toNat = (w.extractLsb' 0 8).toNat + 256 * (w.extractLsb' 8 8).toNat + 65536 * (w.extractLsb' 16 8).toNat +
      16777216 * (w.extractLsb' 24 8).toNat := by
  have below : w.toNat < 2 ^ 32 := w.isLt
  simp only [toNat_byte_eq_digit]
  omega

/-- Settles O40: the four bytes are the word's digits in base 256, and the digits with their weights sum to the word. -/
theorem wordsAreEmittedLittleEndian : Obligations.WordsAreEmittedLittleEndian := by
  unfold Obligations.WordsAreEmittedLittleEndian
  exact fun w => ⟨_, _, _, _, rfl, toNat_eq_sum_of_bytes w⟩

end Sys2Proof.Machine
end

section
/-! SUPPORT. Where each encode puts the shared fields its format has (30_encoding.md R62). -/

namespace Sys2Proof.Machine

/-- A word whose bits from `lo` up are those of `v` has `v` as its field there. -/
theorem extractLsb'_eq_of_bits {w : Word} {lo n : Nat} {v : BitVec n}
    (bits : ∀ k, k < n → w.getLsbD (lo + k) = v.getLsbD k) : w.extractLsb' lo n = v :=
  BitVec.eq_of_getLsbD_eq fun k hk => by rw [BitVec.getLsbD_extractLsb', bits k hk, decide_eq_true hk, Bool.true_and]

/-! In the proofs below `omega` picks the branch of the bitwise law in which bits `lo` to `lo + n - 1` lie. -/

theorem encR_shared_fields (opcode : BitVec 7) (rd : RegId) (funct3 : BitVec 3) (rs1 rs2 : RegId) (funct7 : BitVec 7) :
    let w := encR opcode rd funct3 rs1 rs2 funct7
    wordOpcode w = opcode ∧ wordRd w = rd ∧ wordFunct3 w = funct3 ∧ wordRs1 w = rs1 ∧ wordRs2 w = rs2 ∧
      wordFunct7 w = funct7 := by
  refine ⟨?_, ?_, ?_, ?_, ?_, ?_⟩
  all_goals
    refine extractLsb'_eq_of_bits fun k hk => ?_
    simp (disch := omega) only [encR_getLsbD, if_pos, if_neg, Nat.add_sub_cancel_left, Nat.zero_add]

theorem encI_shared_fields (opcode : BitVec 7) (rd : RegId) (funct3 : BitVec 3) (rs1 : RegId) (imm : Word) :
    let w := encI opcode rd funct3 rs1 imm
    wordOpcode w = opcode ∧ wordRd w = rd ∧ wordFunct3 w = funct3 ∧ wordRs1 w = rs1 := by
  refine ⟨?_, ?_, ?_, ?_⟩
  all_goals
    refine extractLsb'_eq_of_bits fun k hk => ?_
    simp (disch := omega) only [encI_getLsbD, if_pos, if_neg, Nat.add_sub_cancel_left, Nat.zero_add]

theorem encS_shared_fields (opcode : BitVec 7) (funct3 : BitVec 3) (rs1 rs2 : RegId) (imm : Word) :
    let w := encS opcode funct3 rs1 rs2 imm
    wordOpcode w = opcode ∧ wordFunct3 w = funct3 ∧ wordRs1 w = rs1 ∧ wordRs2 w = rs2 := by
  refine ⟨?_, ?_, ?_, ?_⟩
  all_goals
    refine extractLsb'_eq_of_bits fun k hk => ?_
    simp (disch := omega) only [encS_getLsbD, if_pos, if_neg, Nat.add_sub_cancel_left, Nat.zero_add]

theorem encSB_shared_fields (opcode : BitVec 7) (funct3 : BitVec 3) (rs1 rs2 : RegId) (imm : Word) :
    let w := encSB opcode funct3 rs1 rs2 imm
    wordOpcode w = opcode ∧ wordFunct3 w = funct3 ∧ wordRs1 w = rs1 ∧ wordRs2 w = rs2 := by
  refine ⟨?_, ?_, ?_, ?_⟩
  all_goals
    refine extractLsb'_eq_of_bits fun k hk => ?_
    simp (disch := omega) only [encSB_getLsbD, if_pos, if_neg, Nat.add_sub_cancel_left, Nat.zero_add]

theorem encU_shared_fields (opcode : BitVec 7) (rd : RegId) (imm : Word) :
    let w := encU opcode rd imm
    wordOpcode w = opcode ∧ wordRd w = rd := by
  refine ⟨?_, ?_⟩
  all_goals
    refine extractLsb'_eq_of_bits fun k hk => ?_
    simp (disch := omega) only [encU_getLsbD, if_pos, if_neg, Nat.add_sub_cancel_left, Nat.zero_add]

theorem encUJ_shared_fields (opcode : BitVec 7) (rd : RegId) (imm : Word) :
    let w := encUJ opcode rd imm
    wordOpcode w = opcode ∧ wordRd w = rd := by
  refine ⟨?_, ?_⟩
  all_goals
    refine extractLsb'_eq_of_bits fun k hk => ?_
    simp (disch := omega) only [encUJ_getLsbD, if_pos, if_neg, Nat.add_sub_cancel_left, Nat.zero_add]

/-- Settles O9: format by format, what decode reads as a shared field is the field encode was given. -/
theorem encodeKeepsSharedFieldsAtTheirBits : Obligations.EncodeKeepsSharedFieldsAtTheirBits := by
  unfold Obligations.EncodeKeepsSharedFieldsAtTheirBits
  exact ⟨encR_shared_fields, encI_shared_fields, encS_shared_fields, encSB_shared_fields, encU_shared_fields,
    encUJ_shared_fields⟩

end Sys2Proof.Machine
end

section
/-! SUPPORT. The codec's records against the pseudocode: the R, I and S words (40_format_codec.md R102 to R104) and the
record of each format (R108 to R113). -/

namespace Sys2Proof.Machine

/-- Settles O5: each concatenation is the encoder's own equation. -/
theorem encodeLaysOutTheRAndIAndSFormats : Obligations.EncodeLaysOutTheRAndIAndSFormats := by
  unfold Obligations.EncodeLaysOutTheRAndIAndSFormats
  refine ⟨?layoutR, ?layoutI, ?layoutS⟩
  case layoutR => exact fun _ _ _ _ _ _ => rfl
  case layoutI => exact fun _ _ _ _ _ => rfl
  case layoutS => exact fun _ _ _ _ _ => rfl

/-- R109's corner case: from bit 12 up both are the sign bit, and below it both are the word's bits from 20 up. -/
theorem gatherI_eq_sshiftRight (w : Word) : gatherI w = w.sshiftRight 20 := by
  refine BitVec.eq_of_getLsbD_eq fun k hk => ?_
  rw [gatherI_getLsbD, BitVec.getLsbD_sshiftRight, BitVec.msb_eq_getLsbD_last]
  by_cases low : k < 12
  · have inWord : 20 + k < 32 := by omega
    simp [hk, low, inWord]
  · have pastWord : ¬ 20 + k < 32 := by omega
    simp [hk, low, pastWord]

/-- R112's corner case: the low 12 bits are cleared, and the others are the word's own. -/
theorem gatherU_eq_and_mask (w : Word) : gatherU w = w &&& 0xFFFFF000#32 := by
  have mask : 0xFFFFF000#32 = BitVec.allOnes 32 <<< 12 := by decide
  refine BitVec.eq_of_getLsbD_eq fun k hk => ?_
  rw [gatherU_getLsbD, mask, BitVec.getLsbD_and, BitVec.getLsbD_shiftLeft, BitVec.getLsbD_allOnes]
  by_cases low : k < 12
  · simp [low]
  · have inOnes : k - 12 < 32 := by omega
    simp [hk, low, inOnes]

/-- Settles O7: the fields and the S, SB and UJ immediates are read as the pseudocode reads them; the I and the U
immediate take the two lemmas above. -/
theorem decodeReturnsTheRecordOfEachFormat : Obligations.DecodeReturnsTheRecordOfEachFormat := by
  unfold Obligations.DecodeReturnsTheRecordOfEachFormat
  intro w
  refine ⟨rfl, ?recordI, rfl, rfl, ?recordU, rfl⟩
  case recordI => exact congrArg (FormatRecord.i _ _ _ _) (gatherI_eq_sshiftRight w)
  case recordU => exact congrArg (FormatRecord.u _ _) (gatherU_eq_and_mask w)

end Sys2Proof.Machine
end

section
/-! SUPPORT. What the operations whose constants the source gives append (41_instruction_model.md R140, R150). -/

namespace Sys2Proof.Machine

theorem exec_addi (rd rs1 : RegId) (imm : Word) (s : State) :
    exec (.addi rd rs1 imm) s = .next (appendWord (encI 0b0010011#7 rd 0b000#3 rs1 imm) s) := rfl

theorem exec_add (rd rs1 rs2 : RegId) (s : State) :
    exec (.add rd rs1 rs2) s = .next (appendWord (encR 0b0110011#7 rd 0b000#3 rs1 rs2 0b0000000#7) s) := rfl

/-- Settles O18: each operation appends the word its format's encoder builds (R140, R150), the concatenation in R103's
and in R102's order. -/
theorem addiAndAddAppendTheirWord : Obligations.AddiAndAddAppendTheirWord := by
  unfold Obligations.AddiAndAddAppendTheirWord
  refine ⟨fun rd rs1 imm s => ?addi, fun rd rs1 rs2 s => ?add⟩
  case addi => rw [exec_addi, encI, appendWord]
  case add => rw [exec_add, encR, appendWord]

end Sys2Proof.Machine
end

section
/-! SUPPORT. The parser against the grammar of one line (42_parser.md R162), piece by piece: what the last operand and the
operands of a statement read is what the grammar writes, so the lines that parse are the lines of the grammar. -/

namespace Sys2Proof.Machine

/-! ### Literals -/

/-- The two alternatives exclude each other: a decimal literal does not begin with `0x`, since `x` is no decimal
digit. -/
theorem literalValue_eq_some_iff (tok : List Byte) (m : Nat) : literalValue tok = some m ↔ Literal tok m := by
  constructor
  · intro h
    unfold literalValue at h
    split_ifs at h with h0x hhex hdec
    · cases h
      obtain ⟨hne, hall⟩ := hhex
      rw [← List.take_append_drop 2 tok, h0x]
      exact .hex _ hne (List.all_eq_true.1 hall)
    · cases h
      obtain ⟨hne, hall⟩ := hdec
      exact .decimal _ hne (List.all_eq_true.1 hall)
  · intro h
    cases h with
    | decimal _ hne hd =>
      have no0x : tok.take 2 ≠ ascii ['0', 'x'] := fun h => by
        have hx : 0x78 ∈ tok.take 2 := h ▸ by decide
        exact absurd (hd _ (List.mem_of_mem_take hx)) (by decide)
      rw [literalValue, if_neg no0x, if_pos ⟨hne, List.all_eq_true.2 hd⟩]
    | hex hs hne hd =>
      have h0x : (ascii ['0', 'x'] ++ hs).take 2 = ascii ['0', 'x'] := rfl
      rw [literalValue, if_pos h0x]
      exact if_pos ⟨hne, List.all_eq_true.2 hd⟩

theorem immOf_eq_some_iff (p : LitOvf) (tok : List Byte) (imm : Word) :
    immOf p tok = some imm ↔ ∃ m, Literal tok m ∧ immOfMagnitude p m = some imm := by
  simp only [immOf, Option.bind_eq_some_iff, literalValue_eq_some_iff]

/-! ### Tokens and what follows them -/

/-- A text with a token in front begins with no blank. -/
theorem head_not_blank_of_token {t rest q : List Byte} {c : Byte} (ht : t ≠ [] ∧ t.all (fun c => !isDelim c) = true)
    (h : t ++ rest = c :: q) : isBlank c = false := by
  obtain ⟨hne, hall⟩ := ht
  obtain ⟨a, s, rfl⟩ := List.exists_cons_of_ne_nil hne
  obtain ⟨rfl, -⟩ := List.cons.inj h
  exact not_blank_of_not_delim (head_not_delim hall)

theorem blanks_head {b q : List Byte} {c : Byte} (hb : Blanks b) (h : b = c :: q) : isDelim c = true :=
  blank_isDelim (hb c (h ▸ List.mem_cons_self))

/-- The two operand statements go on with a blank after the mnemonic. -/
theorem TwoRegs.head {regs rest q : List Byte} {rd rs1 : RegId} {c : Byte} (h : TwoRegs regs rd rs1)
    (hc : regs ++ rest = c :: q) : isDelim c = true := by
  cases h with
  | mk ws n1 ows1 n2 ows2 _ _ hne hws =>
    obtain ⟨a, s, rfl⟩ := List.exists_cons_of_ne_nil hne
    obtain ⟨rfl, -⟩ := List.cons.inj hc
    exact blanks_head hws rfl

/-! ### The last operand -/

/-- The last operand of a statement of selector `op`, and the element of `prog` it completes. -/
inductive LastOperand (p : LitOvf) (rd rs1 : RegId) : BitVec 4 → List Byte → Op → Prop where
  | register {n : List Byte} {rs2 : RegId} : (n, rs2) ∈ regNames → LastOperand p rd rs1 10 n ⟨10, rd, rs1, rs2, 0⟩
  | immediate {op : BitVec 4} {lit : List Byte} {m : Nat} {imm : Word} : op ≠ 10 → Literal lit m →
      immOfMagnitude p m = some imm → LastOperand p rd rs1 op lit ⟨op, rd, rs1, 0, imm⟩

theorem LastOperand.is_token {p : LitOvf} {rd rs1 : RegId} {op : BitVec 4} {tok : List Byte} {o : Op}
    (h : LastOperand p rd rs1 op tok o) : tok ≠ [] ∧ tok.all (fun c => !isDelim c) = true := by
  cases h with
  | register hn => exact regName_not_delim hn
  | immediate _ hlit _ => exact literal_not_delim hlit

/-- What `parseLast` asks of the token. -/
theorem lastOperand_iff (p : LitOvf) (rd rs1 : RegId) (op : BitVec 4) (tok : List Byte) (o : Op) :
    LastOperand p rd rs1 op tok o ↔
      (if op = 10 then (regOf tok).map fun rs2 => (⟨op, rd, rs1, rs2, 0⟩ : Op)
        else (immOf p tok).map fun imm => ⟨op, rd, rs1, 0, imm⟩) = some o := by
  constructor
  · intro h
    cases h with
    | register hn => rw [if_pos rfl, (regOf_eq_some_iff_mem _ _).2 hn, Option.map_some]
    | immediate hop hlit himm => rw [if_neg hop, (immOf_eq_some_iff p tok _).2 ⟨_, hlit, himm⟩, Option.map_some]
  · split_ifs with hop
    · subst hop
      intro h
      obtain ⟨rs2, hn, rfl⟩ := Option.map_eq_some_iff.1 h
      exact .register ((regOf_eq_some_iff_mem _ _).1 hn)
    · intro h
      obtain ⟨imm, hm, rfl⟩ := Option.map_eq_some_iff.1 h
      obtain ⟨m, hlit, himm⟩ := (immOf_eq_some_iff p tok imm).1 hm
      exact .immediate hop hlit himm

theorem parseLast_eq_some_iff (p : LitOvf) (op : BitVec 4) (rd rs1 : RegId) (l : List Byte) (o : Op) :
    parseLast p op rd rs1 l = some o ↔
      ∃ tok trail, l = tok ++ trail ∧ Blanks trail ∧ LastOperand p rd rs1 op tok o := by
  constructor
  · intro h
    unfold parseLast at h
    split at h
    case isTrue htrail =>
      exact ⟨token l, afterToken l, (token_append_afterToken l).symm, (isTrail_iff_blanks _).1 htrail,
        (lastOperand_iff ..).2 h⟩
    case isFalse => cases h
  · rintro ⟨tok, trail, rfl, htrail, hlast⟩
    obtain ⟨htok, hafter⟩ := token_of_append hlast.is_token.2 fun c q => blanks_head htrail
    rw [parseLast, htok, hafter, if_pos ((isTrail_iff_blanks _).2 htrail)]
    exact (lastOperand_iff ..).1 hlast

/-! ### The operands -/

/-- Each cut of the parser takes all the blanks there are; the token after them begins with none. -/
theorem parseOperands_eq_some_iff (p : LitOvf) (op : BitVec 4) (l : List Byte) (o : Op) :
    parseOperands p op l = some o ↔
      ∃ regs tok trail rd rs1, l = regs ++ (tok ++ trail) ∧ TwoRegs regs rd rs1 ∧ Blanks trail ∧
        LastOperand p rd rs1 op tok o := by
  simp only [parseOperands, Option.bind_eq_some_iff, Prod.exists, takeBlanks_eq_some_iff, takeReg_eq_some_iff,
    takeComma_eq_some_iff, parseLast_eq_some_iff]
  constructor
  · rintro ⟨_, ⟨ws, hne, rfl, hws, -⟩, rd, _, ⟨n1, hn1, rfl, -⟩, _, ⟨ows1, rfl, hows1, -⟩, rs1, _, ⟨n2, hn2, rfl, -⟩,
      _, ⟨ows2, rfl, hows2, -⟩, tok, trail, rfl, htrail, hlast⟩
    exact ⟨_, tok, trail, rd, rs1, by simp, .mk ws n1 ows1 n2 ows2 rd rs1 hne hws hn1 hows1 hn2 hows2, htrail, hlast⟩
  · rintro ⟨_, tok, trail, rd, rs1, rfl, ⟨ws, n1, ows1, n2, ows2, _, _, hne, hws, hn1, hows1, hn2, hows2⟩, htrail, hlast⟩
    have comma_delim : isDelim comma = true := rfl
    refine ⟨n1 ++ ([comma] ++ ows1 ++ (n2 ++ ([comma] ++ ows2 ++ (tok ++ trail)))), ⟨ws, hne, by simp, hws, ?_⟩,
      rd, _, ⟨n1, hn1, rfl, ?_⟩, _, ⟨ows1, rfl, hows1, ?_⟩, rs1, _, ⟨n2, hn2, rfl, ?_⟩, _, ⟨ows2, rfl, hows2, ?_⟩,
      tok, trail, rfl, htrail, hlast⟩
    · exact fun c q => head_not_blank_of_token (regName_not_delim hn1)
    · rintro c q h
      exact (List.cons.inj h).1 ▸ comma_delim
    · exact fun c q => head_not_blank_of_token (regName_not_delim hn2)
    · rintro c q h
      exact (List.cons.inj h).1 ▸ comma_delim
    · exact fun c q => head_not_blank_of_token hlast.is_token

/-! ### The line -/

theorem mnemonic_nop_iff (mn : List Byte) : (mn, 9) ∈ mnemonics ↔ mn = ascii ['n', 'o', 'p'] := by
  constructor
  · have : ∀ e ∈ mnemonics, e.2 = 9 → e.1 = ascii ['n', 'o', 'p'] := by decide
    exact fun h => this _ h rfl
  · rintro rfl
    decide

theorem mnemonic_add_iff (mn : List Byte) : (mn, 10) ∈ mnemonics ↔ mn = ascii ['a', 'd', 'd'] := by
  constructor
  · have : ∀ e ∈ mnemonics, e.2 = 10 → e.1 = ascii ['a', 'd', 'd'] := by decide
    exact fun h => this _ h rfl
  · rintro rfl
    decide

/-- What `parseLine` does after a mnemonic up to a delimiter or the end. -/
theorem parseLine_mnemonic_append (p : LitOvf) {mn rest : List Byte} {op : BitVec 4} (hmn : (mn, op) ∈ mnemonics)
    (hrest : ∀ c q, rest = c :: q → isDelim c = true) :
    parseLine p (mn ++ rest) =
      if op = 9 then (if isTrail rest then some ⟨9, 0, 0, 0, 0⟩ else none) else parseOperands p op rest := by
  obtain ⟨htok, hafter⟩ := token_of_append (mnemonic_not_delim hmn).2.1 hrest
  rw [parseLine, htok, hafter, (selectorOf_eq_some_iff_mem _ _).2 hmn, Option.bind_some]

theorem parseLine_nop (p : LitOvf) {trail : List Byte} (htrail : Blanks trail) :
    parseLine p (ascii ['n', 'o', 'p'] ++ trail) = some ⟨9, 0, 0, 0, 0⟩ := by
  rw [parseLine_mnemonic_append p ((mnemonic_nop_iff _).2 rfl) fun c q => blanks_head htrail, if_pos rfl,
    if_pos ((isTrail_iff_blanks _).2 htrail)]

theorem parseLine_operands {p : LitOvf} {mn regs tok trail : List Byte} {op : BitVec 4} {rd rs1 : RegId} {o : Op}
    (hmn : (mn, op) ∈ mnemonics) (hop : op ≠ 9) (hregs : TwoRegs regs rd rs1) (hlast : LastOperand p rd rs1 op tok o)
    (htrail : Blanks trail) : parseLine p (mn ++ regs ++ tok ++ trail) = some o := by
  rw [List.append_assoc, List.append_assoc, parseLine_mnemonic_append p hmn fun c q => hregs.head, if_neg hop]
  exact (parseOperands_eq_some_iff ..).2 ⟨regs, tok, trail, rd, rs1, rfl, hregs, htrail, hlast⟩

theorem statement_of_lastOperand {p : LitOvf} {mn regs tok : List Byte} {op : BitVec 4} {rd rs1 : RegId} {o : Op}
    (hmn : (mn, op) ∈ mnemonics) (hop : op ≠ 9) (hregs : TwoRegs regs rd rs1) (hlast : LastOperand p rd rs1 op tok o) :
    Statement p (mn ++ regs ++ tok) o := by
  cases hlast with
  | register hn =>
    rw [(mnemonic_add_iff mn).1 hmn]
    exact .add regs tok rd rs1 _ hregs hn
  | immediate hop' hlit himm =>
    have hle : op.toNat ≤ 10 := (mnemonic_not_delim hmn).2.2
    exact .immediate mn regs tok op rd rs1 _ _ hmn (by bv_omega) hregs hlit himm

/-- Every line that parses is a line of the grammar, with the same statement. -/
theorem isLine_of_parseLine {p : LitOvf} {l : List Byte} {o : Op} (h : parseLine p l = some o) : IsLine p l o := by
  obtain ⟨op, hsel, h⟩ := Option.bind_eq_some_iff.1 h
  have hmn : (token l, op) ∈ mnemonics := (selectorOf_eq_some_iff_mem _ _).1 hsel
  split_ifs at h with hop htrail
  · cases h
    have hnop : token l = ascii ['n', 'o', 'p'] := (mnemonic_nop_iff _).1 (hop ▸ hmn)
    exact ⟨_, afterToken l, hnop ▸ (token_append_afterToken l).symm, (isTrail_iff_blanks _).1 htrail, .nop⟩
  · obtain ⟨regs, tok, trail, rd, rs1, hafter, hregs, htrail, hlast⟩ := (parseOperands_eq_some_iff ..).1 h
    have hline : l = token l ++ regs ++ tok ++ trail := by
      rw [List.append_assoc, List.append_assoc, ← hafter, token_append_afterToken]
    exact ⟨_, trail, hline, htrail, statement_of_lastOperand hmn hop hregs hlast⟩

/-- Every line of the grammar parses to its statement. -/
theorem parseLine_of_isLine {p : LitOvf} {l : List Byte} {o : Op} (h : IsLine p l o) : parseLine p l = some o := by
  obtain ⟨_, trail, rfl, htrail, hbody⟩ := h
  cases hbody with
  | immediate mn regs lit op rd rs1 m imm hmn hop hregs hlit himm =>
    exact parseLine_operands hmn (by bv_omega) hregs (.immediate (by bv_omega) hlit himm) htrail
  | add regs n3 rd rs1 rs2 hregs hn =>
    exact parseLine_operands ((mnemonic_add_iff _).2 rfl) (by decide) hregs (.register hn) htrail
  | nop => exact parseLine_nop p htrail

theorem parseLine_eq_some_iff_isLine (p : LitOvf) (l : List Byte) (o : Op) : parseLine p l = some o ↔ IsLine p l o :=
  ⟨isLine_of_parseLine, parseLine_of_isLine⟩

/-! ### The whole input (42_parser.md R172) -/

theorem parseLine_eq_none_iff (p : LitOvf) (l : List Byte) : parseLine p l = none ↔ ∀ o, ¬ IsLine p l o := by
  simp only [Option.eq_none_iff_forall_ne_some, ne_eq, parseLine_eq_some_iff_isLine]

theorem parseLine_ne_none_iff (p : LitOvf) (l : List Byte) : parseLine p l ≠ none ↔ ∃ o, IsLine p l o := by
  simp only [Option.ne_none_iff_exists', parseLine_eq_some_iff_isLine]

/-- Line by line: each parses to its element exactly when each is a line of the grammar with that element. -/
theorem map_parseLine_eq_iff_forall₂ (p : LitOvf) (ls : List (List Byte)) (prog : List Op) :
    ls.map (parseLine p) = prog.map some ↔ List.Forall₂ (IsLine p) ls prog := by
  rw [← List.forall₂_eq_eq_eq, List.forall₂_map_left_iff, List.forall₂_map_right_iff]
  simp only [parseLine_eq_some_iff_isLine]

/-- Settles O36: the two outcomes of the list of lines, with the grammar for the parser of each line. -/
theorem parseGivesTheListOrTheFirstFailingLine : Obligations.ParseGivesTheListOrTheFirstFailingLine := by
  unfold Obligations.ParseGivesTheListOrTheFirstFailingLine
  refine fun p b => ⟨fun prog => ?list, fun k => ?firstFailure, rfl⟩
  case list => rw [parse, parseLines_eq_ok, map_parseLine_eq_iff_forall₂]
  case firstFailure =>
    simp only [parse, parseLines_eq_fail, parseLine_eq_none_iff, parseLine_ne_none_iff, Nat.add_comm 1]

end Sys2Proof.Machine
end

section
/-! SUPPORT. The general lowering (41_instruction_model.md R132) against the meanings of the operations: what stage 3 does
over a list, in terms of `lower`. -/

namespace Sys2Proof.Machine

/-! ### One operation -/

/-- The table has a row for exactly the selectors with a mapping. -/
theorem lower_err_isSome_iff (o : Op) : (lower o).err.isSome = true ↔ 11 ≤ o.op.toNat := by
  have rows : opTable.length = 11 := rfl
  unfold lower
  split
  case h_1 row hrow =>
    obtain ⟨hlt, -⟩ := List.getElem?_eq_some_iff.1 hrow
    simp only [Option.isSome_none, Bool.false_eq_true, false_iff]
    omega
  case h_2 hnone =>
    have hle := List.getElem?_eq_none_iff.1 hnone
    simp only [Option.isSome_some, true_iff]
    omega

/-- Selector by selector, the row's record is the one the meaning encodes. -/
theorem exec_appends_lowered_word {o : Op} {i : Instr} (h : instrOfOp o = some i) (s : State) :
    exec i s = .next (appendWord (lower o).word s) := by
  unfold instrOfOp at h
  split at h
  case h_12 => cases h
  all_goals
    next hop =>
      cases h
      rw [lower, hop]
      rfl

/-! ### Stage 3 (43_pass_and_emitter.md R190) -/

@[simp] theorem loweredWords_nil : loweredWords [] = [] := rfl

@[simp] theorem loweredWords_cons (o : Op) (os : List Op) :
    loweredWords (o :: os) = (lower o).word :: loweredWords os := rfl

@[simp] theorem loweredWords_length (prog : List Op) : (loweredWords prog).length = prog.length := List.length_map _

/-- The first operation, where the table has its row: its word, then the rest. -/
theorem lowerAll_cons_lowered {o : Op} (h : (lower o).err.isSome = false) (os : List Op) (s : State) :
    lowerAll (o :: os) s = lowerAll os (appendWord (lower o).word s) := by
  cases hi : instrOfOp o with
  | none =>
    have herr : (lower o).err.isSome = true := (lower_err_isSome_iff o).2 (instrOfOp_eq_none.1 hi)
    exact absurd (h.symm.trans herr) (by decide)
  | some i => rw [lowerAll_cons_mapped hi, exec_appends_lowered_word hi, andThen_next]

/-- Stage 3 where every operation lowers. -/
theorem lowerAll_of_all_lowered {prog : List Op} (h : prog.find? (fun o => (lower o).err.isSome) = none) (s : State) :
    lowerAll prog s = .next { s with words := s.words ++ loweredWords prog } := by
  induction prog generalizing s with
  | nil => simp
  | cons o os ih =>
    obtain ⟨ho, hos⟩ : (lower o).err.isSome = false ∧ os.find? (fun o => (lower o).err.isSome) = none := by
      simpa using h
    rw [lowerAll_cons_lowered ho, ih hos]
    simp [appendWord]

/-- Stage 3 where some operation does not lower: the first of them fails the pass, with the words before it. -/
theorem lowerAll_of_first_unlowered {prog : List Op} {bad : Op}
    (h : prog.find? (fun o => (lower o).err.isSome) = some bad) (s : State) :
    ∃ ws, lowerAll prog s = .next (failPass (.unsupported bad.op) { s with words := ws }) := by
  induction prog generalizing s with
  | nil => cases h
  | cons o os ih =>
    cases ho : (lower o).err.isSome with
    | true =>
      obtain rfl : o = bad := by simpa [List.find?_cons, ho] using h
      exact ⟨s.words, lowerAll_cons_unmapped (instrOfOp_eq_none.2 ((lower_err_isSome_iff o).1 ho)) os s⟩
    | false =>
      obtain ⟨ws, hws⟩ := ih (by simpa [List.find?_cons, ho] using h) (appendWord (lower o).word s)
      exact ⟨ws, by rw [lowerAll_cons_lowered ho, hws]; rfl⟩

/-! ### What the parser gives it (R151) -/

theorem parseLine_selector_le {p : LitOvf} {l : List Byte} {o : Op} (h : parseLine p l = some o) : o.op.toNat ≤ 10 := by
  obtain ⟨_, _, -, -, hbody⟩ := isLine_of_parseLine h
  cases hbody with
  | immediate _ _ _ op _ _ _ _ _ hop => exact hop.trans (by decide)
  | add => exact Nat.le_refl 10
  | nop => decide

/-- No operation of a parsed input fails stage 3. -/
theorem parsed_all_lowered {p : LitOvf} {b : List Byte} {prog : List Op} (h : parse p b = .ok prog) :
    prog.find? (fun o => (lower o).err.isSome) = none := by
  refine List.find?_eq_none.2 fun o ho herr => ?_
  have hline : some o ∈ (linesOf b).map (parseLine p) := (parseLines_eq_ok ..).1 h ▸ List.mem_map_of_mem ho
  obtain ⟨l, -, hl⟩ := List.mem_map.1 hline
  have mapped : o.op.toNat ≤ 10 := parseLine_selector_le hl
  have unmapped : 11 ≤ o.op.toNat := (lower_err_isSome_iff o).1 herr
  omega

end Sys2Proof.Machine
end

section
/-! SUPPORT. A pass as a whole (43_pass_and_emitter.md R190): one equation per stage it can end in, and from them that it
leaves the pass state of the rule's pseudocode. -/

namespace Sys2Proof.Machine

/-- A step whose request is a pass is that pass. -/
theorem step_of_pass {s : State} {rs : List Request} {input : List Byte} {rdFail : Bool} {wrFail : Option Nat}
    (h : s.requests = .pass input rdFail wrFail :: rs) :
    step s = runPass Config.litOvf input rdFail wrFail { s with requests := rs } := by
  rw [step, h]
  rfl

/-! ### The end of a pass, stage by stage -/

theorem runPass_of_readFail (p : LitOvf) (input : List Byte) (wrFail : Option Nat) (s : State) :
    runPass p input true wrFail s =
      .next { s with pass := ⟨.failed, [], [], [], some (.ioRead .read)⟩, words := [] } := rfl

theorem runPass_of_parse_fail {p : LitOvf} {input : List Byte} {k : Nat} (h : parse p input = .fail k)
    (wrFail : Option Nat) (s : State) :
    runPass p input false wrFail s =
      .next { s with pass := ⟨.failed, input, [], [], some (.parse k)⟩, words := [] } := by
  have hparse : parseStage p (readStage input false (beginPass s)) =
      failPass (.parse k) (readStage input false (beginPass s)) := by
    simp [parseStage, readStage, PassState.reset, h]
  rw [runPass, hparse, lowerStage_of_failed (failPass_phase _ _), andThen_next,
    emitStage_of_failed wrFail (failPass_phase _ _)]
  rfl

/-- Every operation of a parsed input lowers, so the pass comes to stage 4. -/
theorem runPass_of_parse_ok {p : LitOvf} {input : List Byte} {prog : List Op} (h : parse p input = .ok prog)
    (wrFail : Option Nat) (s : State) :
    runPass p input false wrFail s = .next (endPass (emitStage wrFail
      { s with pass := ⟨.idle, input, prog, [], none⟩, words := loweredWords prog })) := by
  have hparse : parseStage p (readStage input false (beginPass s)) =
      { s with pass := ⟨.idle, input, prog, [], none⟩, words := [] } := by
    simp [parseStage, readStage, PassState.reset, beginPass, h]
  have hlower : lowerStage { s with pass := ⟨.idle, input, prog, [], none⟩, words := [] } =
      .next { s with pass := ⟨.idle, input, prog, [], none⟩, words := loweredWords prog } :=
    lowerAll_of_all_lowered (parsed_all_lowered h) _
  rw [runPass, hparse, hlower, andThen_next]

theorem runPass_of_no_failure {p : LitOvf} {input : List Byte} {prog : List Op} (h : parse p input = .ok prog)
    (s : State) :
    runPass p input false none s =
      .next { s with pass := ⟨.done, input, prog, intendedOutput prog, none⟩, words := [] } := by
  rw [runPass_of_parse_ok h]
  rfl

@[simp] theorem intendedOutput_length (prog : List Op) : (intendedOutput prog).length = 4 * prog.length := by
  simp [intendedOutput]

/-- A write failure, the draws R194 does not allow included (log 2). -/
theorem runPass_of_write_fail {p : LitOvf} {input : List Byte} {prog : List Op} (h : parse p input = .ok prog)
    (j : Nat) (s : State) :
    runPass p input false (some j) s =
      .next { s with
        pass := ⟨.failed, input, prog, (intendedOutput prog).take j, some (.ioWrite .write (min j (4 * prog.length)))⟩
        words := [] } := by
  rw [runPass_of_parse_ok h, ← intendedOutput_length]
  rfl

/-! ### The pseudocode -/

theorem specPass_of_parse_fail {p : LitOvf} {input : List Byte} {k : Nat} (h : parse p input = .fail k)
    (wrFail : Option Nat) : specPass p input false wrFail = ⟨.failed, input, [], [], some (.parse k)⟩ := by
  simp [specPass, h]

theorem specPass_of_no_failure {p : LitOvf} {input : List Byte} {prog : List Op} (h : parse p input = .ok prog) :
    specPass p input false none = ⟨.done, input, prog, intendedOutput prog, none⟩ := by
  simp [specPass, h, parsed_all_lowered h]

theorem specPass_of_write_fail {p : LitOvf} {input : List Byte} {prog : List Op} (h : parse p input = .ok prog)
    (j : Nat) :
    specPass p input false (some j) =
      ⟨.failed, input, prog, (intendedOutput prog).take j, some (.ioWrite .write j)⟩ := by
  simp [specPass, h, parsed_all_lowered h]

/-- The pass refines its pseudocode: what is left of the state before is the ports and the later requests. -/
theorem runPass_eq_specPass {p : LitOvf} {input : List Byte} {wrFail : Option Nat} (legal : WriteDrawLegal p input wrFail)
    (rdFail : Bool) (s : State) :
    runPass p input rdFail wrFail s = .next { s with pass := specPass p input rdFail wrFail, words := [] } := by
  cases rdFail with
  | true => exact runPass_of_readFail p input wrFail s
  | false =>
    cases h : parse p input with
    | fail k => rw [runPass_of_parse_fail h, specPass_of_parse_fail h]
    | ok prog =>
      cases wrFail with
      | none => rw [runPass_of_no_failure h, specPass_of_no_failure h]
      | some j =>
        have hj : j ≤ 4 * prog.length := legal j prog rfl h
        rw [runPass_of_write_fail h, specPass_of_write_fail h, min_eq_left hj]

/-- Settles O44: the equation of the whole pass, at the step's request. -/
theorem passReturnsWhatItsPseudocodeReturns : Obligations.PassReturnsWhatItsPseudocodeReturns := by
  unfold Obligations.PassReturnsWhatItsPseudocodeReturns
  intro s rs input rdFail wrFail hreq legal
  exact ⟨_, (step_of_pass hreq).trans (runPass_eq_specPass legal rdFail _), rfl⟩

/-! ### Failures before stage 4 (R192) -/

/-- An operation with no row fails stage 3, and nothing of `outbuf` is written. -/
theorem lowerAll_fails_of_unmapped {prog : List Op} (h : ∃ o ∈ prog, 11 ≤ o.op.toNat) (s : State) :
    ∃ t, lowerAll prog s = .next t ∧ t.pass.phase = .failed ∧ t.pass.outbuf = s.pass.outbuf := by
  obtain ⟨o, ho, hop⟩ := h
  have hfind : (prog.find? fun o => (lower o).err.isSome).isSome :=
    List.find?_isSome.2 ⟨o, ho, (lower_err_isSome_iff o).2 hop⟩
  obtain ⟨bad, hbad⟩ := Option.isSome_iff_exists.1 hfind
  obtain ⟨ws, hws⟩ := lowerAll_of_first_unlowered hbad s
  exact ⟨_, hws, rfl, rfl⟩

/-- Settles O46: a parse failure ends the pass before stage 4, and stage 4 does nothing after a failure of stage 3. -/
theorem parseAndLoweringFailuresEmitNoByte : Obligations.ParseAndLoweringFailuresEmitNoByte := by
  unfold Obligations.ParseAndLoweringFailuresEmitNoByte
  refine ⟨fun s rs input wrFail k hreq hparse => ?parse, fun prog s wrFail hout hunmapped => ?lowering⟩
  case parse => exact ⟨_, (step_of_pass hreq).trans (runPass_of_parse_fail hparse wrFail _), rfl, rfl⟩
  case lowering =>
    obtain ⟨t, ht, hfailed, hsame⟩ := lowerAll_fails_of_unmapped hunmapped s
    refine ⟨t, ht, ?_⟩
    rw [emitStage_of_failed wrFail hfailed]
    exact ⟨hfailed, hsame.trans hout⟩

/-! ### Word `k` of the output (R193, 20_memory.md R44) -/

theorem bytesOfWords_drop_take {ws : List Word} {k : Nat} {w : Word} (h : ws[k]? = some w) :
    ((bytesOfWords ws).drop (4 * k)).take 4 = bytesOfWord w := by
  induction ws generalizing k with
  | nil => cases h
  | cons v vs ih =>
    cases k with
    | zero =>
      cases h
      exact List.take_left' (bytesOfWord_length _)
    | succ k =>
      have skip : (bytesOfWords (v :: vs)).drop (4 * (k + 1)) = (bytesOfWords vs).drop (4 * k) := by
        rw [Nat.mul_succ, Nat.add_comm, bytesOfWords_cons, ← List.drop_drop]
        rfl
      rw [skip]
      exact ih h

theorem intendedOutput_drop_take {prog : List Op} {k : Nat} {o : Op} (h : prog[k]? = some o) :
    ((intendedOutput prog).drop (4 * k)).take 4 = bytesOfWord (lower o).word :=
  bytesOfWords_drop_take (by rw [loweredWords, List.getElem?_map, h, Option.map_some])

/-- Settles O47: the pass over a parsed input leaves its intended output; the empty input parses to no statement. -/
theorem successfulPassEmitsFourBytesPerStatement : Obligations.SuccessfulPassEmitsFourBytesPerStatement := by
  unfold Obligations.SuccessfulPassEmitsFourBytesPerStatement
  refine ⟨fun s rs input prog hreq hparse => ?parsed, fun s rs hreq => ?empty⟩
  case parsed =>
    exact ⟨_, (step_of_pass hreq).trans (runPass_of_no_failure hparse _), rfl, rfl, rfl, intendedOutput_length prog,
      fun k o => intendedOutput_drop_take⟩
  case empty =>
    have hparse : parse Config.litOvf [] = .ok [] := rfl
    exact ⟨_, (step_of_pass hreq).trans (runPass_of_no_failure hparse _), rfl⟩

end Sys2Proof.Machine
end

section
/-! SUPPORT. What an error does to a pass, and what the stages after it do not (60_exceptions.md R219). -/

namespace Sys2Proof.Machine

/-- Settles O4: the update is `failPass` itself, and each stage finds the phase `Failed` it leaves. -/
theorem anErrorEndsThePassAndWritesNothingElse : Obligations.AnErrorEndsThePassAndWritesNothingElse := by
  unfold Obligations.AnErrorEndsThePassAndWritesNothingElse
  intro e s p wrFail
  have hfailed : (failPass e s).pass.phase = .failed := failPass_phase e s
  exact ⟨failPass e s, rfl, rfl, parseStage_of_failed p hfailed, lowerStage_of_failed hfailed,
    emitStage_of_failed wrFail hfailed⟩

end Sys2Proof.Machine
end

section
/-! SUPPORT. The format codec through its scatter table (30_encoding.md R70): which word bit each immediate bit is, what
decode makes of it, and from the two the canonical immediate (R73) and decode after encode (40_format_codec.md R116). -/

namespace Sys2Proof.Machine

/-! ### The scatter table on encode and on decode -/

/-- What an immediate bit is, by its entry in the scatter table: a stored bit, 0, or the sign. -/
def ImmBit.value (stored : Nat → Bool) (sign : Bool) : ImmBit → Bool
  | .word n => stored n
  | .zero => false
  | .sign => sign

/-- The branch of the table's row and the branch of the bitwise law of encode are the same. -/
theorem encodeRecord_getLsbD_of_scatter {rec : FormatRecord} {i n : Nat} (h : scatter rec.format i = .word n) :
    (encodeRecord rec).getLsbD n = rec.imm.getLsbD i := by
  cases rec with
  | r => cases h
  | i => grind [FormatRecord.format, scatter, encodeRecord, FormatRecord.imm, encI_getLsbD]
  | s => grind [FormatRecord.format, scatter, encodeRecord, FormatRecord.imm, encS_getLsbD]
  | sb => grind [FormatRecord.format, scatter, encodeRecord, FormatRecord.imm, encSB_getLsbD]
  | u => grind [FormatRecord.format, scatter, encodeRecord, FormatRecord.imm, encU_getLsbD]
  | uj => grind [FormatRecord.format, scatter, encodeRecord, FormatRecord.imm, encUJ_getLsbD]

/-- Word bit 31 is the sign of every format (R71). -/
theorem decodeRecord_imm_getLsbD (f : Format) (w : Word) {i : Nat} (hi : i < 32) :
    (decodeRecord f w).imm.getLsbD i = (scatter f i).value w.getLsbD (w.getLsbD 31) := by
  cases f with
  | r => simp [decodeRecord, FormatRecord.imm, scatter, ImmBit.value]
  | i => grind [decodeRecord, FormatRecord.imm, scatter, ImmBit.value, gatherI_getLsbD]
  | s => grind [decodeRecord, FormatRecord.imm, scatter, ImmBit.value, gatherS_getLsbD]
  | sb => grind [decodeRecord, FormatRecord.imm, scatter, ImmBit.value, gatherSB_getLsbD]
  | u => grind [decodeRecord, FormatRecord.imm, scatter, ImmBit.value, gatherU_getLsbD]
  | uj => grind [decodeRecord, FormatRecord.imm, scatter, ImmBit.value, gatherUJ_getLsbD]

theorem canonImm_s_eq_canonImm_i (v : Word) : canonImm .s v = canonImm .i v := rfl

theorem canonImm_getLsbD (f : Format) (v : Word) {i : Nat} (hi : i < 32) :
    (canonImm f v).getLsbD i = (scatter f i).value (fun _ => v.getLsbD i) (v.getLsbD (signBit f)) := by
  cases f with
  | r => simp [canonImm, scatter, ImmBit.value]
  | i => grind [scatter, ImmBit.value, signBit, canonImm_i_getLsbD]
  | s => grind [scatter, ImmBit.value, signBit, canonImm_i_getLsbD, canonImm_s_eq_canonImm_i]
  | sb => grind [scatter, ImmBit.value, signBit, canonImm_sb_getLsbD]
  | u => grind [scatter, ImmBit.value, signBit, canonImm_u_getLsbD]
  | uj => grind [scatter, ImmBit.value, signBit, canonImm_uj_getLsbD]

/-- The top stored bit of every immediate is word bit 31. -/
theorem scatter_signBit {f : Format} (hf : f ≠ .r) : scatter f (signBit f) = .word 31 := by
  cases f with
  | r => exact absurd rfl hf
  | i | s | sb | u | uj => rfl

theorem signBit_lt (f : Format) : signBit f < 32 := by
  cases f <;> decide

/-- Only a format with an immediate has a bit that is not dropped. -/
theorem ne_r_of_scatter {f : Format} {i : Nat} (h : scatter f i ≠ .zero) : f ≠ .r := by
  rintro rfl
  exact h rfl

/-- The decoded sign bit is word bit 31. -/
theorem decodeRecord_imm_signBit {f : Format} (hf : f ≠ .r) (w : Word) :
    (decodeRecord f w).imm.getLsbD (signBit f) = w.getLsbD 31 := by
  rw [decodeRecord_imm_getLsbD f w (signBit_lt f), scatter_signBit hf, ImmBit.value]

/-! ### Decode after encode (R116) -/

/-- A decoded record that has all the shared fields of `rec` is `rec` with another immediate. -/
theorem decodeRecord_encodeRecord_eq_withImm (rec : FormatRecord) :
    decodeRecord rec.format (encodeRecord rec) =
      rec.withImm (decodeRecord rec.format (encodeRecord rec)).imm := by
  cases rec with
  | r opcode rd funct3 rs1 rs2 funct7 =>
    obtain ⟨h1, h2, h3, h4, h5, h6⟩ := encR_shared_fields opcode rd funct3 rs1 rs2 funct7
    simp only [FormatRecord.format, encodeRecord, decodeRecord, FormatRecord.withImm, h1, h2, h3, h4, h5, h6]
  | i opcode rd funct3 rs1 imm =>
    obtain ⟨h1, h2, h3, h4⟩ := encI_shared_fields opcode rd funct3 rs1 imm
    simp only [FormatRecord.format, encodeRecord, decodeRecord, FormatRecord.withImm, FormatRecord.imm, h1, h2, h3, h4]
  | s opcode funct3 rs1 rs2 imm =>
    obtain ⟨h1, h2, h3, h4⟩ := encS_shared_fields opcode funct3 rs1 rs2 imm
    simp only [FormatRecord.format, encodeRecord, decodeRecord, FormatRecord.withImm, FormatRecord.imm, h1, h2, h3, h4]
  | sb opcode funct3 rs1 rs2 imm =>
    obtain ⟨h1, h2, h3, h4⟩ := encSB_shared_fields opcode funct3 rs1 rs2 imm
    simp only [FormatRecord.format, encodeRecord, decodeRecord, FormatRecord.withImm, FormatRecord.imm, h1, h2, h3, h4]
  | u opcode rd imm =>
    obtain ⟨h1, h2⟩ := encU_shared_fields opcode rd imm
    simp only [FormatRecord.format, encodeRecord, decodeRecord, FormatRecord.withImm, FormatRecord.imm, h1, h2]
  | uj opcode rd imm =>
    obtain ⟨h1, h2⟩ := encUJ_shared_fields opcode rd imm
    simp only [FormatRecord.format, encodeRecord, decodeRecord, FormatRecord.withImm, FormatRecord.imm, h1, h2]

/-- Bit by bit: a stored bit comes back, and an extended one is the stored sign. -/
theorem decodeRecord_encodeRecord_imm (rec : FormatRecord) :
    (decodeRecord rec.format (encodeRecord rec)).imm = canonImm rec.format rec.imm := by
  refine BitVec.eq_of_getLsbD_eq fun i hi => ?_
  rw [decodeRecord_imm_getLsbD _ _ hi, canonImm_getLsbD _ _ hi]
  cases h : scatter rec.format i with
  | word n => exact encodeRecord_getLsbD_of_scatter h
  | zero => rfl
  | sign =>
    have hf : rec.format ≠ .r := ne_r_of_scatter (by rw [h]; decide)
    exact encodeRecord_getLsbD_of_scatter (scatter_signBit hf)

theorem decodeRecord_encodeRecord (rec : FormatRecord) :
    decodeRecord rec.format (encodeRecord rec) = rec.withImm (canonImm rec.format rec.imm) := by
  rw [decodeRecord_encodeRecord_eq_withImm, decodeRecord_encodeRecord_imm]

/-! ### Canonical immediates and the domain (30_encoding.md R72, R73) -/

theorem toInt_canonImm_i (v : Word) : (canonImm .i v).toInt = (v.toNat % 4096 : Int).bmod 4096 := by
  rw [canonImm, BitVec.toInt_signExtend_of_le (by omega), BitVec.toInt_eq_toNat_bmod, BitVec.extractLsb'_toNat]
  simp

theorem toInt_canonImm_sb (v : Word) : (canonImm .sb v).toInt = (2 * (v.toNat / 2 % 4096) : Int).bmod 8192 := by
  rw [canonImm, BitVec.toInt_signExtend_of_le (by omega), BitVec.toInt_eq_toNat_bmod, BitVec.toNat_append]
  simp [Nat.shiftRight_eq_div_pow, Nat.shiftLeft_eq, Nat.mul_comm]

theorem toInt_canonImm_uj (v : Word) : (canonImm .uj v).toInt = (2 * (v.toNat / 2 % 1048576) : Int).bmod 2097152 := by
  rw [canonImm, BitVec.toInt_signExtend_of_le (by omega), BitVec.toInt_eq_toNat_bmod, BitVec.toNat_append]
  simp [Nat.shiftRight_eq_div_pow, Nat.shiftLeft_eq, Nat.mul_comm]

theorem toNat_canonImm_u (v : Word) : (canonImm .u v).toNat = 4096 * (v.toNat / 4096 % 1048576) := by
  rw [canonImm, BitVec.toNat_append]
  simp [Nat.shiftRight_eq_div_pow, Nat.shiftLeft_eq, Nat.mul_comm]

/-- Both sides are about `v` as a number: the canonical one is its residue, recentred, and the domain its range. -/
theorem canonImm_eq_self_iff (f : Format) (v : Word) : canonImm f v = v ↔ immDomain f v := by
  have below : v.toNat < 2 ^ 32 := v.isLt
  have signed : v.toInt = if v.toNat < 2147483648 then (v.toNat : Int) else v.toNat - 4294967296 := by
    rw [BitVec.toInt_eq_toNat_cond]
    grind
  cases f with
  | r => exact eq_comm
  | i =>
    rw [← BitVec.toInt_inj, toInt_canonImm_i, immDomain, Int.bmod_def]
    omega
  | s =>
    rw [canonImm_s_eq_canonImm_i, ← BitVec.toInt_inj, toInt_canonImm_i, immDomain, Int.bmod_def]
    omega
  | sb =>
    rw [← BitVec.toInt_inj, toInt_canonImm_sb, immDomain, Int.bmod_def]
    omega
  | u =>
    rw [← BitVec.toNat_inj, toNat_canonImm_u, immDomain]
    omega
  | uj =>
    rw [← BitVec.toInt_inj, toInt_canonImm_uj, immDomain, Int.bmod_def]
    omega

/-- A decoded immediate is canonical: what is extended is extended from the same bit. -/
theorem canonImm_decodeRecord_imm (f : Format) (w : Word) :
    canonImm f (decodeRecord f w).imm = (decodeRecord f w).imm := by
  refine BitVec.eq_of_getLsbD_eq fun i hi => ?_
  rw [canonImm_getLsbD _ _ hi]
  cases h : scatter f i with
  | word n => rfl
  | zero => rw [decodeRecord_imm_getLsbD _ _ hi, h]; rfl
  | sign =>
    have hf : f ≠ .r := ne_r_of_scatter (by rw [h]; decide)
    rw [decodeRecord_imm_getLsbD _ _ hi, h]
    exact decodeRecord_imm_signBit hf w

/-- Settles O11: the shared fields come back (O9's lemmas), and the immediate comes back bit by bit as the scatter table
says. -/
theorem decodeAfterEncodeGivesTheRecord : Obligations.DecodeAfterEncodeGivesTheRecord := by
  unfold Obligations.DecodeAfterEncodeGivesTheRecord
  refine fun rec => ⟨decodeRecord_encodeRecord rec, fun hdomain => ?_⟩
  rw [decodeRecord_encodeRecord, (canonImm_eq_self_iff _ _).2 hdomain, withImm_imm_self]

end Sys2Proof.Machine
end

section
/-! SUPPORT. What the spec derives from the layouts of the formats: the scatter table both ways (30_encoding.md R70),
encode after decode (40_format_codec.md R117) and what a decoded immediate can be (R118 to R120). -/

namespace Sys2Proof.Machine

/-! ### What the word depends on (R70) -/

theorem scatter_injective {f : Format} {i j n : Nat} (hi : scatter f i = .word n) (hj : scatter f j = .word n) :
    i = j := by
  cases f <;> grind [scatter]

/-- A word bit that holds no immediate bit is a field's, whatever the immediate. -/
theorem encodeRecord_withImm_getLsbD_of_not_stored {rec : FormatRecord} {k : Nat}
    (h : ∀ i, i < 32 → scatter rec.format i ≠ .word k) (v u : Word) :
    (encodeRecord (rec.withImm v)).getLsbD k = (encodeRecord (rec.withImm u)).getLsbD k := by
  by_cases hk : k < 32
  · cases rec with
    | r => rfl
    | i =>
      have high := h (k - 20)
      grind [FormatRecord.format, scatter, FormatRecord.withImm, encodeRecord, encI_getLsbD]
    | s =>
      have low := h (k - 7)
      have high := h (k - 20)
      grind [FormatRecord.format, scatter, FormatRecord.withImm, encodeRecord, encS_getLsbD]
    | sb =>
      have low := h (k - 7)
      have high := h (k - 20)
      have eleventh := h 11
      have sign := h 12
      grind [FormatRecord.format, scatter, FormatRecord.withImm, encodeRecord, encSB_getLsbD]
    | u =>
      have high := h k
      grind [FormatRecord.format, scatter, FormatRecord.withImm, encodeRecord, encU_getLsbD]
    | uj =>
      have low := h (k - 20)
      have eleventh := h 11
      have mid := h k
      have sign := h 20
      grind [FormatRecord.format, scatter, FormatRecord.withImm, encodeRecord, encUJ_getLsbD]
  · rw [BitVec.getLsbD_of_ge _ _ (by omega), BitVec.getLsbD_of_ge _ _ (by omega)]

theorem withImm_imm {rec : FormatRecord} (hrec : rec.format ≠ .r) (v : Word) : (rec.withImm v).imm = v := by
  cases rec with
  | r => exact absurd rfl hrec
  | i | s | sb | u | uj => rfl

theorem withImm_withImm (rec : FormatRecord) (v u : Word) : (rec.withImm v).withImm u = rec.withImm u := by
  cases rec <;> rfl

theorem encodeRecord_withImm_getLsbD_of_scatter {rec : FormatRecord} {i n : Nat} (h : scatter rec.format i = .word n)
    (v : Word) : (encodeRecord (rec.withImm v)).getLsbD n = v.getLsbD i := by
  have hrec : rec.format ≠ .r := ne_r_of_scatter (by rw [h]; simp)
  rw [encodeRecord_getLsbD_of_scatter ((withImm_format rec v).symm ▸ h), withImm_imm hrec]

theorem encodeRecord_withImm_congr (rec : FormatRecord) (v : Word)
    (h : ∀ i n, i < 32 → scatter rec.format i = .word n → v.getLsbD i = rec.imm.getLsbD i) :
    encodeRecord (rec.withImm v) = encodeRecord rec := by
  refine BitVec.eq_of_getLsbD_eq fun k _ => ?_
  by_cases stored : ∃ i, i < 32 ∧ scatter rec.format i = .word k
  · obtain ⟨i, hi, hscatter⟩ := stored
    rw [encodeRecord_withImm_getLsbD_of_scatter hscatter, encodeRecord_getLsbD_of_scatter hscatter, h i k hi hscatter]
  · have fixed := encodeRecord_withImm_getLsbD_of_not_stored (fun i hi hscatter => stored ⟨i, hi, hscatter⟩) v rec.imm
    rwa [withImm_imm_self] at fixed

/-- Settles O10: stored bits on encode, the parts the word is built from, and decoded bits. -/
theorem scatterTableGovernsEveryImmediateBit : Obligations.ScatterTableGovernsEveryImmediateBit := by
  unfold Obligations.ScatterTableGovernsEveryImmediateBit
  refine ⟨fun rec i n _ h => encodeRecord_getLsbD_of_scatter h, encodeRecord_withImm_congr, fun f w i hi => ?decoded⟩
  case decoded =>
    rw [decodeRecord_imm_getLsbD f w hi]
    cases h : scatter f i with
    | word n => rfl
    | zero => rfl
    | sign =>
      have hf : f ≠ .r := ne_r_of_scatter (by rw [h]; decide)
      exact (decodeRecord_imm_signBit hf w).symm

/-! ### Encode after decode (R117) -/

/-- Field by field, decode reads the word bits that encode writes. -/
theorem encodeRecord_decodeRecord (f : Format) (w : Word) : encodeRecord (decodeRecord f w) = w := by
  refine BitVec.eq_of_getLsbD_eq fun k hk => ?_
  cases f with
  | r => grind [decodeRecord, encodeRecord, encR_getLsbD, wordOpcode, wordRd, wordFunct3, wordRs1, wordRs2, wordFunct7]
  | i => grind [decodeRecord, encodeRecord, encI_getLsbD, gatherI_getLsbD, wordOpcode, wordRd, wordFunct3, wordRs1]
  | s => grind [decodeRecord, encodeRecord, encS_getLsbD, gatherS_getLsbD, wordOpcode, wordFunct3, wordRs1, wordRs2]
  | sb => grind [decodeRecord, encodeRecord, encSB_getLsbD, gatherSB_getLsbD, wordOpcode, wordFunct3, wordRs1, wordRs2]
  | u => grind [decodeRecord, encodeRecord, encU_getLsbD, gatherU_getLsbD, wordOpcode, wordRd]
  | uj => grind [decodeRecord, encodeRecord, encUJ_getLsbD, gatherUJ_getLsbD, wordOpcode, wordRd]

/-- Settles O12: the word's fields and its immediate's stored bits cover all 32 bits. -/
theorem encodeAfterDecodeGivesTheWord : Obligations.EncodeAfterDecodeGivesTheWord := by
  unfold Obligations.EncodeAfterDecodeGivesTheWord
  exact encodeRecord_decodeRecord

/-! ### What a decoded immediate can be (R72, R118, R119) -/

theorem decodeRecord_imm_in_domain (f : Format) (w : Word) : immDomain f (decodeRecord f w).imm :=
  (canonImm_eq_self_iff _ _).1 (canonImm_decodeRecord_imm f w)

/-- Settles O13: canonical is in the domain, and a decoded immediate is canonical. -/
theorem canonicalImmediatesAreExactlyTheDomain : Obligations.CanonicalImmediatesAreExactlyTheDomain := by
  unfold Obligations.CanonicalImmediatesAreExactlyTheDomain
  exact ⟨canonImm_eq_self_iff, decodeRecord_imm_in_domain⟩

theorem scatter_last {f : Format} (hf : f ≠ .r) : scatter f 31 = .word 31 ∨ scatter f 31 = .sign := by
  cases f with
  | r => exact absurd rfl hf
  | u => exact .inl rfl
  | i | s | sb | uj => exact .inr rfl

/-- The top bit of a decoded immediate, stored or extended, is word bit 31. -/
theorem decodeRecord_imm_msb {f : Format} (hf : f ≠ .r) (w : Word) : (decodeRecord f w).imm.msb = w.getLsbD 31 := by
  rw [BitVec.msb_eq_getLsbD_last, decodeRecord_imm_getLsbD f w (by decide)]
  obtain h | h := scatter_last hf
  · rw [h, ImmBit.value]
  · rw [h, ImmBit.value]

/-- Settles O14: the sign is the top bit of the immediate, and O12's law gives the word back. -/
theorem wordBit31IsTheSignOfTheImmediate : Obligations.WordBit31IsTheSignOfTheImmediate := by
  unfold Obligations.WordBit31IsTheSignOfTheImmediate
  refine fun f w hf => ⟨?sign, encodeRecord_decodeRecord f w⟩
  case sign => rw [← decodeRecord_imm_msb hf, BitVec.msb_eq_toInt, decide_eq_true_iff]

/-- Settles O15: evenness is part of the domain (R72), and the low 12 bits of a U immediate are not stored. -/
theorem decodedOffsetsAreEvenAndUpperImmediatesAligned : Obligations.DecodedOffsetsAreEvenAndUpperImmediatesAligned := by
  unfold Obligations.DecodedOffsetsAreEvenAndUpperImmediatesAligned
  intro w
  obtain ⟨-, -, evenSB⟩ := decodeRecord_imm_in_domain .sb w
  obtain ⟨-, -, evenUJ⟩ := decodeRecord_imm_in_domain .uj w
  refine ⟨evenSB, evenUJ, extractLsb'_eq_of_bits fun k hk => ?_⟩
  have dropped : scatter .u (0 + k) = .zero := if_pos (by omega)
  rw [decodeRecord_imm_getLsbD _ _ (by omega), dropped, ImmBit.value, BitVec.ofNat_eq_ofNat, BitVec.getLsbD_zero]

/-! ### One immediate bit alone (R120) -/

@[simp] theorem zeroRecord_format (f : Format) : (zeroRecord f).format = f := by
  cases f <;> rfl

theorem getLsbD_one_shiftLeft (i k : Nat) (hk : k < 32) : (1#32 <<< i).getLsbD k = decide (k = i) := by
  rw [BitVec.getLsbD_shiftLeft, BitVec.getLsbD_one]
  grind

/-- The sign bit alone is the lowest number of the domain, whose negative it is (R71). -/
theorem canonImm_one_shiftLeft_signBit (f : Format) (hf : f ≠ .r) :
    canonImm f (1#32 <<< signBit f) = -(1#32 <<< signBit f) := by
  cases f with
  | r => exact absurd rfl hf
  | i | s | sb | u | uj => decide

/-- Another stored bit alone is in the domain already. -/
theorem canonImm_one_shiftLeft {f : Format} {i n : Nat} (h : scatter f i = .word n) (hsign : i ≠ signBit f) :
    canonImm f (1#32 <<< i) = 1#32 <<< i := by
  refine BitVec.eq_of_getLsbD_eq fun k hk => ?_
  rw [canonImm_getLsbD _ _ hk, getLsbD_one_shiftLeft i k hk, getLsbD_one_shiftLeft i _ (signBit_lt f)]
  cases hscatter : scatter f k with
  | word m => rfl
  | zero =>
    have other : k ≠ i := by grind
    rw [ImmBit.value, decide_eq_false other]
  | sign =>
    have other : k ≠ i := by grind
    rw [ImmBit.value, decide_eq_false other, decide_eq_false hsign.symm]

@[simp] theorem encodeRecord_zeroRecord (f : Format) : encodeRecord (zeroRecord f) = 0 := by
  cases f <;> rfl

@[simp] theorem zeroRecord_withImm_zero (f : Format) : (zeroRecord f).withImm 0 = zeroRecord f := by
  cases f <;> rfl

/-- The bit goes where the table says, no other bit of the immediate goes there, and every field bit is 0. -/
theorem encodeRecord_one_shiftLeft {f : Format} {i n : Nat} (hi : i < 32) (h : scatter f i = .word n) :
    encodeRecord ((zeroRecord f).withImm (1#32 <<< i)) = 1#32 <<< n := by
  refine BitVec.eq_of_getLsbD_eq fun k hk => ?_
  rw [getLsbD_one_shiftLeft n k hk]
  by_cases stored : ∃ j, j < 32 ∧ scatter (zeroRecord f).format j = .word k
  · obtain ⟨j, hj, hscatter⟩ := stored
    rw [encodeRecord_withImm_getLsbD_of_scatter hscatter, getLsbD_one_shiftLeft i j hj, decide_eq_decide]
    rw [zeroRecord_format] at hscatter
    constructor
    · rintro rfl
      exact ImmBit.word.inj (hscatter.symm.trans h)
    · rintro rfl
      exact scatter_injective hscatter h
  · have other : k ≠ n := fun hkn => stored ⟨i, hi, by rw [zeroRecord_format, h, hkn]⟩
    rw [encodeRecord_withImm_getLsbD_of_not_stored (fun j hj hscatter => stored ⟨j, hj, hscatter⟩) _ 0,
      zeroRecord_withImm_zero, encodeRecord_zeroRecord, decide_eq_false other]
    exact BitVec.getLsbD_zero

/-- Settles O16: encode sets the one word bit; decode gives the canonical immediate (O11's law), which only the sign bit
makes another number. -/
theorem eachStoredImmediateBitIsIndependent : Obligations.EachStoredImmediateBitIsIndependent := by
  unfold Obligations.EachStoredImmediateBitIsIndependent
  intro f i n hi h
  have encoded := encodeRecord_one_shiftLeft hi h
  have hf : f ≠ .r := ne_r_of_scatter (by rw [h]; simp)
  have decoded := decodeRecord_encodeRecord ((zeroRecord f).withImm (1#32 <<< i))
  rw [withImm_format, zeroRecord_format, withImm_imm (by simpa using hf), withImm_withImm, encoded] at decoded
  refine ⟨encoded, decoded.trans (congrArg _ ?_)⟩
  split_ifs with hsign
  · rw [hsign, canonImm_one_shiftLeft_signBit f hf]
  · exact canonImm_one_shiftLeft h hsign

end Sys2Proof.Machine
end

section
/-! SUPPORT. The ports of the codec by their format selector (40_format_codec.md R100, R114; 30_encoding.md R77). -/

namespace Sys2Proof.Machine

theorem formatOfSelector_of_le {sel : BitVec 3} (h : sel.toNat ≤ 5) : ∃ f, formatOfSelector sel = some f :=
  Option.isSome_iff_exists.1 ((formatOfSelector_isSome sel).trans (decide_eq_true h))

theorem formatOfSelector_of_reserved {sel : BitVec 3} (h : 6 ≤ sel.toNat) : formatOfSelector sel = none :=
  Option.not_isSome_iff_eq_none.1 (by rw [formatOfSelector_isSome, decide_eq_true_iff]; omega)

theorem encodePorts_of_format {p : EncIn} {f : Format} (h : formatOfSelector p.fmt = some f) :
    encodePorts p = ⟨encodeRecord (recordOfPorts f p), none⟩ := by
  rw [encodePorts, h]

theorem encodePorts_of_reserved {p : EncIn} (h : 6 ≤ p.fmt.toNat) : encodePorts p = ⟨0, some (.fmt p.fmt)⟩ := by
  rw [encodePorts, formatOfSelector_of_reserved h]

theorem decodePorts_of_format {p : DecIn} {f : Format} (h : formatOfSelector p.fmt = some f) :
    decodePorts p =
      { opcode := wordOpcode p.word, rd := wordRd p.word, funct3 := wordFunct3 p.word, rs1 := wordRs1 p.word,
        rs2 := wordRs2 p.word, funct7 := wordFunct7 p.word, imm := (decodeRecord f p.word).imm, err := none } := by
  rw [decodePorts, h]

theorem decodePorts_of_reserved {p : DecIn} (h : 6 ≤ p.fmt.toNat) :
    decodePorts p = ⟨0, 0, 0, 0, 0, 0, 0, some (.fmt p.fmt)⟩ := by
  rw [decodePorts, formatOfSelector_of_reserved h]

/-- Settles O6: the selector names the format (R77), and the word is that format's concatenation. -/
theorem encoderPortsLayOutEachFormat : Obligations.EncoderPortsLayOutEachFormat := by
  unfold Obligations.EncoderPortsLayOutEachFormat
  have selected : ∀ (p : EncIn) (sel : BitVec 3) (f : Format), formatOfSelector sel = some f → p.fmt = sel →
      encodePorts p = ⟨encodeRecord (recordOfPorts f p), none⟩ := fun p sel f hf hp => encodePorts_of_format (hp ▸ hf)
  intro p
  exact ⟨selected p 0 .r rfl, selected p 1 .i rfl, selected p 2 .s rfl, selected p 3 .sb rfl, selected p 4 .u rfl,
    selected p 5 .uj rfl⟩

/-- Settles O8: the decoder's outputs for a selected format, and the R record has no immediate. -/
theorem decoderPortsDriveSharedFieldsInEveryFormat : Obligations.DecoderPortsDriveSharedFieldsInEveryFormat := by
  unfold Obligations.DecoderPortsDriveSharedFieldsInEveryFormat
  intro p hp
  obtain ⟨f, hf⟩ := formatOfSelector_of_le hp
  refine ⟨f, hf, decodePorts_of_format hf, fun hzero => ?_⟩
  have hr : formatOfSelector p.fmt = some .r := by rw [hzero]; rfl
  rw [decodePorts_of_format hr]
  rfl

theorem lower_err_ne_fmt (o : Op) (sel : BitVec 3) : (lower o).err ≠ some (.fmt sel) := by
  unfold lower
  split <;> simp

/-- Settles O17: the two reserved selectors, the six formats, and a lowering whose only error is `E_UNSUPPORTED`. -/
theorem onlyReservedFormatSelectorsFail : Obligations.OnlyReservedFormatSelectorsFail := by
  unfold Obligations.OnlyReservedFormatSelectorsFail
  refine ⟨fun p => encodePorts_of_reserved, fun p => decodePorts_of_reserved, fun p hp => ?_, fun p hp => ?_,
    lower_err_ne_fmt⟩
  · obtain ⟨f, hf⟩ := formatOfSelector_of_le hp
    rw [encodePorts_of_format hf]
  · obtain ⟨f, hf⟩ := formatOfSelector_of_le hp
    rw [decodePorts_of_format hf]

end Sys2Proof.Machine
end

section
/-! SUPPORT. The words of spec/opcode_table.json against the words the operations append: a row's pattern and operands
are the fields of an I-format or an R-format word (30_encoding.md R74). -/

namespace Sys2Proof.Machine

/-! ### Table words as format words -/

/-- The match column of a row: its constants in their fields, 0 elsewhere. -/
def rowPattern (opcode : BitVec 7) (funct3 : BitVec 3) (funct7 : BitVec 7) : Word :=
  funct7 ++ 0#10 ++ funct3 ++ 0#5 ++ opcode

theorem rowPattern_getLsbD (opcode : BitVec 7) (funct3 : BitVec 3) (funct7 : BitVec 7) (k : Nat) :
    (rowPattern opcode funct3 funct7).getLsbD k =
      if k < 7 then opcode.getLsbD k else if k < 12 then false else if k < 15 then funct3.getLsbD (k - 12)
      else if k < 25 then false else funct7.getLsbD (k - 25) := by
  show BitVec.getLsbD (w := 7 + 10 + 3 + 5 + 7) (funct7 ++ 0#10 ++ funct3 ++ 0#5 ++ opcode) k = _
  simp only [BitVec.getLsbD_append, BitVec.getLsbD_zero]
  grind

/-- A mask of low bits keeps the field under it. -/
theorem and_lowMask {mask : Word} {n : Nat} (h : mask = (BitVec.allOnes n).setWidth 32) (imm : Word) :
    imm &&& mask = (imm.extractLsb' 0 n).setWidth 32 := by
  subst h
  refine BitVec.eq_of_getLsbD_eq fun k hk => ?_
  grind

theorem placeImm_eq_encI {pattern : Word} {opcode : BitVec 7} {funct3 : BitVec 3}
    (h : pattern = rowPattern opcode funct3 0) (rd rs1 : RegId) (imm : Word) :
    placeImm pattern rd rs1 imm = encI opcode rd funct3 rs1 imm := by
  have field : imm &&& 0xFFF = (imm.extractLsb' 0 12).setWidth 32 := and_lowMask (by decide) imm
  refine BitVec.eq_of_getLsbD_eq fun k hk => ?_
  rw [placeImm, field, placeFields_getLsbD _ _ _ _ hk, encI_getLsbD, h, rowPattern_getLsbD]
  grind

theorem placeFields_eq_encR {pattern : Word} {opcode : BitVec 7} {funct3 : BitVec 3} {funct7 : BitVec 7}
    (h : pattern = rowPattern opcode funct3 funct7) (rd rs1 rs2 : RegId) :
    placeFields pattern rd rs1 (rs2.setWidth 32) = encR opcode rd funct3 rs1 rs2 funct7 := by
  refine BitVec.eq_of_getLsbD_eq fun k hk => ?_
  rw [placeFields_getLsbD _ _ _ _ hk, encR_getLsbD, h, rowPattern_getLsbD]
  grind

theorem placeShamt_eq_encR {pattern : Word} {opcode : BitVec 7} {funct3 : BitVec 3} {funct7 : BitVec 7}
    (h : pattern = rowPattern opcode funct3 funct7) (rd rs1 : RegId) (imm : Word) :
    placeShamt pattern rd rs1 imm = encR opcode rd funct3 rs1 (imm.extractLsb' 0 5) funct7 := by
  have field : imm &&& 0x1F = (imm.extractLsb' 0 5).setWidth 32 := and_lowMask (by decide) imm
  rw [placeShamt, field, placeFields_eq_encR h]

/-- R134: a shift's I-format word is the R-format word with the shift amount for `rs2`. -/
theorem encI_shiftImm (opcode : BitVec 7) (rd : RegId) (funct3 : BitVec 3) (rs1 : RegId) (funct7 : BitVec 7)
    (imm : Word) :
    encI opcode rd funct3 rs1 (shiftImm funct7 imm) = encR opcode rd funct3 rs1 (imm.extractLsb' 0 5) funct7 := by
  refine BitVec.eq_of_getLsbD_eq fun k hk => ?_
  rw [encI_getLsbD, encR_getLsbD, shiftImm]
  grind

/-! ### What each operation appends -/

theorem exec_appends_encode (i : Instr) (s : State) : exec i s = .next (appendWord (encode i) s) := by
  have appended : ∀ {w v : Word}, v = w → Host.Outcome.next (appendWord w s) = (.next (appendWord v s) :
      Host.Outcome State Fault Refusal) := fun h => by rw [h]
  cases i with
  | addi rd rs1 imm => exact appended (placeImm_eq_encI (by decide) rd rs1 imm)
  | slti rd rs1 imm => exact appended (placeImm_eq_encI (by decide) rd rs1 imm)
  | sltiu rd rs1 imm => exact appended (placeImm_eq_encI (by decide) rd rs1 imm)
  | andi rd rs1 imm => exact appended (placeImm_eq_encI (by decide) rd rs1 imm)
  | ori rd rs1 imm => exact appended (placeImm_eq_encI (by decide) rd rs1 imm)
  | xori rd rs1 imm => exact appended (placeImm_eq_encI (by decide) rd rs1 imm)
  | slli rd rs1 imm => exact appended ((placeShamt_eq_encR (by decide) rd rs1 imm).trans (encI_shiftImm ..).symm)
  | srli rd rs1 imm => exact appended ((placeShamt_eq_encR (by decide) rd rs1 imm).trans (encI_shiftImm ..).symm)
  | srai rd rs1 imm => exact appended ((placeShamt_eq_encR (by decide) rd rs1 imm).trans (encI_shiftImm ..).symm)
  | nop => exact appended (by decide)
  | add rd rs1 rs2 => exact appended (placeFields_eq_encR (by decide) rd rs1 rs2)

/-- Settles O22: row by row, the word an operation appends is its table word. -/
theorem everyOperationAppendsItsTableWord : Obligations.EveryOperationAppendsItsTableWord := by
  unfold Obligations.EveryOperationAppendsItsTableWord
  exact exec_appends_encode

theorem exec_slli (rd rs1 : RegId) (imm : Word) (s : State) :
    exec (.slli rd rs1 imm) s = .next (appendWord (encI 0b0010011#7 rd 0b001#3 rs1 (shiftImm 0b0000000#7 imm)) s) := rfl

theorem exec_srli (rd rs1 : RegId) (imm : Word) (s : State) :
    exec (.srli rd rs1 imm) s = .next (appendWord (encI 0b0010011#7 rd 0b101#3 rs1 (shiftImm 0b0000000#7 imm)) s) := rfl

theorem exec_srai (rd rs1 : RegId) (imm : Word) (s : State) :
    exec (.srai rd rs1 imm) s = .next (appendWord (encI 0b0010011#7 rd 0b101#3 rs1 (shiftImm 0b0100000#7 imm)) s) := rfl

theorem extractLsb'_zero_eq_ofNat_mod (imm : Word) : imm.extractLsb' 0 5 = BitVec.ofNat 5 (imm.toNat % 32) := by
  refine BitVec.eq_of_toNat_eq ?_
  simp

/-- Settles O20: the immediate of R134 makes the I-format word an R-format one. -/
theorem shiftOperationsAppendTheirWord : Obligations.ShiftOperationsAppendTheirWord := by
  unfold Obligations.ShiftOperationsAppendTheirWord
  intro rd rs1 imm s
  rw [← extractLsb'_zero_eq_ofNat_mod, exec_slli, exec_srli, exec_srai, encI_shiftImm, encI_shiftImm, encI_shiftImm]
  exact ⟨rfl, rfl, rfl⟩

/-- Settles O19: each of the five appends the I-format word of R103 with its own funct3. -/
theorem immediateOperationsAppendTheirWord : Obligations.ImmediateOperationsAppendTheirWord := by
  unfold Obligations.ImmediateOperationsAppendTheirWord
  intro rd rs1 imm s
  exact ⟨rfl, rfl, rfl, rfl, rfl⟩

/-- Settles O21: the word of `nop` is its table word (O22's law), a constant. -/
theorem nopAppendsItsWord : Obligations.NopAppendsItsWord := by
  unfold Obligations.NopAppendsItsWord
  exact exec_appends_encode .nop

end Sys2Proof.Machine
end

section
/-! SUPPORT. The decoder of the opcode table (log 4): its rows exclude one another, so a word is read by the row it
matches, and reading and encoding are inverse. -/

namespace Sys2Proof

open Sys2Proof.Machine

/-! ### The row a word matches -/

/-- Two rows that fix some common bit differently. -/
def DecodeRow.Disjoint (a b : DecodeRow) : Prop := a.pattern &&& b.mask ≠ b.pattern &&& a.mask

/-- A list of rows read whole: what it reads comes from a row that matches. -/
theorem decodeByRows_eq_instr {rows : List DecodeRow} {w : Word} {i : Instr} (h : decodeByRows rows w = .instr i) :
    ∃ r ∈ rows, w &&& r.mask = r.pattern ∧ r.read w = i := by
  induction rows with
  | nil => cases h
  | cons r rows ih =>
    unfold decodeByRows at h
    split_ifs at h with hmatch
    · exact ⟨r, List.mem_cons_self, hmatch, Decoded.instr.inj h⟩
    · obtain ⟨r', hmem, hr'⟩ := ih h
      exact ⟨r', List.mem_cons_of_mem _ hmem, hr'⟩

/-- No word matches two disjoint rows. -/
theorem not_match_of_disjoint {a b : DecodeRow} (h : a.Disjoint b) {w : Word} (hb : w &&& b.mask = b.pattern) :
    w &&& a.mask ≠ a.pattern := by
  intro ha
  apply h
  rw [← ha, ← hb, BitVec.and_assoc, BitVec.and_assoc, BitVec.and_comm a.mask]

/-- Among disjoint rows the one that matches is read. -/
theorem decodeByRows_of_mem {rows : List DecodeRow} (hrows : rows.Pairwise DecodeRow.Disjoint) {r : DecodeRow}
    (hmem : r ∈ rows) {w : Word} (hmatch : w &&& r.mask = r.pattern) : decodeByRows rows w = .instr (r.read w) := by
  induction hrows with
  | nil => cases hmem
  | cons hhead _ ih =>
    unfold decodeByRows
    obtain rfl | hmem := List.mem_cons.1 hmem
    · exact if_pos hmatch
    · rw [if_neg (not_match_of_disjoint (hhead r hmem) hmatch)]
      exact ih hmem

/-- The rows after that of `nop`. -/
theorem decodeRows_tail_disjoint : decodeRows.tail.Pairwise DecodeRow.Disjoint := by
  unfold DecodeRow.Disjoint
  decide

theorem decodeWord_of_ne_nop {w : Word} (h : w ≠ 0x00000013) : decodeWord w = decodeByRows decodeRows.tail w := by
  have all : w &&& 0xFFFFFFFF = w := BitVec.and_allOnes (x := w)
  exact if_neg (by rw [all]; exact h)

theorem decodeWord_nop : decodeWord 0x00000013 = .instr .nop := rfl

theorem decodeWord_of_row {w : Word} (h : w ≠ 0x00000013) {r : DecodeRow} (hmem : r ∈ decodeRows.tail)
    (hmatch : w &&& r.mask = r.pattern) : decodeWord w = .instr (r.read w) := by
  rw [decodeWord_of_ne_nop h, decodeByRows_of_mem decodeRows_tail_disjoint hmem hmatch]

/-! ### Decode after encode -/

/-- `immInDomainI` is the I format's domain (30_encoding.md R72). -/
theorem immInDomainI_iff (imm : Word) : immInDomainI imm = true ↔ immDomain .i imm := decide_eq_true_iff

theorem fieldImm12_placeImm {pattern : Word} {opcode : BitVec 7} {funct3 : BitVec 3}
    (h : pattern = rowPattern opcode funct3 0) (rd rs1 : RegId) {imm : Word} (himm : immInDomainI imm = true) :
    fieldImm12 (placeImm pattern rd rs1 imm) = imm := by
  have decoded := decodeRecord_encodeRecord_imm (.i opcode rd funct3 rs1 imm)
  rw [placeImm_eq_encI h]
  exact decoded.trans ((canonImm_eq_self_iff .i imm).2 ((immInDomainI_iff imm).1 himm))

theorem readImmForm_placeImm (op : RegId → RegId → Word → Instr) {pattern : Word} {opcode : BitVec 7}
    {funct3 : BitVec 3} (h : pattern = rowPattern opcode funct3 0) (rd rs1 : RegId) {imm : Word}
    (himm : immInDomainI imm = true) : readImmForm op (placeImm pattern rd rs1 imm) = op rd rs1 imm := by
  obtain ⟨-, hrd, -, hrs1⟩ := encI_shared_fields opcode rd funct3 rs1 imm
  rw [readImmForm, fieldImm12_placeImm h rd rs1 himm, placeImm_eq_encI h]
  exact congrArg₂ (op · · imm) hrd hrs1

theorem readShiftForm_placeShamt (op : RegId → RegId → Word → Instr) {pattern : Word} {opcode : BitVec 7}
    {funct3 : BitVec 3} {funct7 : BitVec 7} (h : pattern = rowPattern opcode funct3 funct7) (rd rs1 : RegId)
    {imm : Word} (himm : shamtInDomain imm = true) : readShiftForm op (placeShamt pattern rd rs1 imm) = op rd rs1 imm := by
  obtain ⟨-, hrd, -, hrs1, hrs2, -⟩ := encR_shared_fields opcode rd funct3 rs1 (imm.extractLsb' 0 5) funct7
  have hshamt : fieldShamt (placeShamt pattern rd rs1 imm) = imm := by
    rw [placeShamt_eq_encR h]
    refine (congrArg (BitVec.setWidth 32) hrs2).trans (BitVec.eq_of_toNat_eq ?_)
    have small : imm.toNat < 32 := of_decide_eq_true himm
    simp; omega
  rw [readShiftForm, hshamt, placeShamt_eq_encR h]
  exact congrArg₂ (op · · imm) hrd hrs1

/-- A word that differs from `nop`'s in a bit its row fixes. -/
theorem ne_nop_of_match {w mask pattern : Word} (h : w &&& mask = pattern) (hnop : 0x00000013 &&& mask ≠ pattern) :
    w ≠ 0x00000013 := by
  rintro rfl
  exact hnop h

theorem decodeWord_placeImm {op : RegId → RegId → Word → Instr} {pattern : Word} {funct3 : BitVec 3}
    (hrow : ⟨0x0000707F, pattern, readImmForm op⟩ ∈ decodeRows.tail)
    (hpattern : pattern = rowPattern 0b0010011 funct3 0 ∧ pattern &&& 0x0000707F = pattern) (rd rs1 : RegId)
    {imm : Word} (himm : immInDomainI imm = true) (hnop : placeImm pattern rd rs1 imm ≠ 0x00000013) :
    decodeWord (placeImm pattern rd rs1 imm) = .instr (op rd rs1 imm) := by
  rw [decodeWord_of_row hnop hrow (Laws.RowMatch.placeImm_row hpattern.2 rd rs1 imm)]
  exact congrArg Decoded.instr (readImmForm_placeImm op hpattern.1 rd rs1 himm)

/-- A row other than that of `addi` has no word of `nop`. -/
theorem decodeWord_placeImm_of_ne_addi {op : RegId → RegId → Word → Instr} {pattern : Word} {funct3 : BitVec 3}
    (hrow : ⟨0x0000707F, pattern, readImmForm op⟩ ∈ decodeRows.tail)
    (hpattern : pattern = rowPattern 0b0010011 funct3 0 ∧ pattern &&& 0x0000707F = pattern ∧ 0x00000013 ≠ pattern)
    (rd rs1 : RegId) {imm : Word} (himm : immInDomainI imm = true) :
    decodeWord (placeImm pattern rd rs1 imm) = .instr (op rd rs1 imm) := by
  obtain ⟨hconst, hfixed, hne⟩ := hpattern
  exact decodeWord_placeImm hrow ⟨hconst, hfixed⟩ rd rs1 himm
    (ne_nop_of_match (Laws.RowMatch.placeImm_row hfixed rd rs1 imm) hne)

theorem decodeWord_placeShamt {op : RegId → RegId → Word → Instr} {pattern : Word} {funct3 : BitVec 3}
    {funct7 : BitVec 7} (hrow : ⟨0xFE00707F, pattern, readShiftForm op⟩ ∈ decodeRows.tail)
    (hpattern : pattern = rowPattern 0b0010011 funct3 funct7 ∧ pattern &&& 0xFE00707F = pattern ∧
      0x00000013 ≠ pattern)
    (rd rs1 : RegId) {imm : Word} (himm : shamtInDomain imm = true) :
    decodeWord (placeShamt pattern rd rs1 imm) = .instr (op rd rs1 imm) := by
  obtain ⟨hconst, hfixed, hne⟩ := hpattern
  have hmatch := Laws.RowMatch.placeShamt_row hfixed rd rs1 imm
  rw [decodeWord_of_row (ne_nop_of_match hmatch hne) hrow hmatch]
  exact congrArg Decoded.instr (readShiftForm_placeShamt op hconst rd rs1 himm)

theorem decodeWord_add (rd rs1 rs2 : RegId) : decodeWord (encode (.add rd rs1 rs2)) = .instr (.add rd rs1 rs2) := by
  have hmatch : encode (.add rd rs1 rs2) &&& 0xFE00707F = 0x00000033 := Laws.RowMatch.add rd rs1 rs2
  have hword : encode (.add rd rs1 rs2) = encR 0b0110011 rd 0b000 rs1 rs2 0b0000000 :=
    placeFields_eq_encR (by decide) rd rs1 rs2
  obtain ⟨-, hrd, -, hrs1, hrs2, -⟩ := encR_shared_fields 0b0110011 rd 0b000 rs1 rs2 0b0000000
  rw [decodeWord_of_row (r := ⟨0xFE00707F, 0x00000033, fun w => .add (fieldRd w) (fieldRs1 w) (fieldRs2 w)⟩)
    (ne_nop_of_match hmatch (by decide)) (by simp [decodeRows]) hmatch, hword]
  exact congrArg Decoded.instr ((Instr.add.injEq ..).mpr ⟨hrd, hrs1, hrs2⟩)

/-- `addi` with the word of `nop` has that one's operands. -/
theorem placeImm_addi_ne_nop {rd rs1 : RegId} {imm : Word} (himm : immInDomainI imm = true)
    (h : isNopSpelling rd rs1 imm = false) : placeImm 0x00000013 rd rs1 imm ≠ 0x00000013 := by
  intro hword
  have hpattern : 0x00000013 = rowPattern 0b0010011 0 0 := by decide
  have operands := readImmForm_placeImm .addi hpattern rd rs1 himm
  rw [hword] at operands
  obtain ⟨rfl, rfl, rfl⟩ := Instr.addi.inj operands
  exact absurd h (by decide)

theorem decodeWord_encode {i : Instr} (hwf : i.wf = true) : decodeWord (encode i) = .instr i := by
  cases i with
  | addi rd rs1 imm =>
    obtain ⟨himm, hnop⟩ : immInDomainI imm = true ∧ isNopSpelling rd rs1 imm = false := by
      simpa [Instr.wf] using hwf
    exact decodeWord_placeImm (funct3 := 0b000) (by simp [decodeRows]) (by decide) rd rs1 himm
      (placeImm_addi_ne_nop himm hnop)
  | slti rd rs1 imm =>
    exact decodeWord_placeImm_of_ne_addi (funct3 := 0b010) (by simp [decodeRows]) (by decide) rd rs1 hwf
  | sltiu rd rs1 imm =>
    exact decodeWord_placeImm_of_ne_addi (funct3 := 0b011) (by simp [decodeRows]) (by decide) rd rs1 hwf
  | andi rd rs1 imm =>
    exact decodeWord_placeImm_of_ne_addi (funct3 := 0b111) (by simp [decodeRows]) (by decide) rd rs1 hwf
  | ori rd rs1 imm =>
    exact decodeWord_placeImm_of_ne_addi (funct3 := 0b110) (by simp [decodeRows]) (by decide) rd rs1 hwf
  | xori rd rs1 imm =>
    exact decodeWord_placeImm_of_ne_addi (funct3 := 0b100) (by simp [decodeRows]) (by decide) rd rs1 hwf
  | slli rd rs1 imm =>
    exact decodeWord_placeShamt (funct3 := 0b001) (funct7 := 0b0000000) (by simp [decodeRows]) (by decide) rd rs1 hwf
  | srli rd rs1 imm =>
    exact decodeWord_placeShamt (funct3 := 0b101) (funct7 := 0b0000000) (by simp [decodeRows]) (by decide) rd rs1 hwf
  | srai rd rs1 imm =>
    exact decodeWord_placeShamt (funct3 := 0b101) (funct7 := 0b0100000) (by simp [decodeRows]) (by decide) rd rs1 hwf
  | nop => exact decodeWord_nop
  | add rd rs1 rs2 => exact decodeWord_add rd rs1 rs2

theorem decodeTableWord_eq_some_iff (w : Word) (i : Instr) :
    decodeTableWord 32 w.toNat = some i ↔ decodeWord w = .instr i := by
  rw [decodeTableWord_of_word]
  cases decodeWord w <;> simp

/-- Settles O29: a well-formed operation's word matches its own row alone, and the row reads back every operand that the
word stores whole. -/
theorem decodeEncodeGivesTheOperation : Obligations.DecodeEncodeGivesTheOperation := by
  unfold Obligations.DecodeEncodeGivesTheOperation
  exact fun i hwf => ⟨decodeWord_encode hwf, (decodeTableWord_eq_some_iff _ i).2 (decodeWord_encode hwf)⟩

/-- Settles O28: each word is the encoding of its operation, which is well formed. -/
theorem tableWordsDecodeToTheirOperation : Obligations.TableWordsDecodeToTheirOperation := by
  unfold Obligations.TableWordsDecodeToTheirOperation
  have decoded : ∀ {n : Nat} {i : Instr}, n = (encode i).toNat ∧ i.wf = true → decodeTableWord 32 n = some i := by
    rintro _ i ⟨rfl, hwf⟩
    exact (decodeTableWord_eq_some_iff _ i).2 (decodeWord_encode hwf)
  exact ⟨decoded (by decide), decoded (by decide), decoded (by decide), decoded (by decide), decoded (by decide)⟩

/-! ### Encode after decode -/

theorem rowPattern_fields (opcode : BitVec 7) (funct3 : BitVec 3) (funct7 : BitVec 7) :
    let w := rowPattern opcode funct3 funct7
    wordOpcode w = opcode ∧ wordFunct3 w = funct3 ∧ wordFunct7 w = funct7 := by
  refine ⟨?_, ?_, ?_⟩
  all_goals
    refine extractLsb'_eq_of_bits fun k hk => ?_
    simp (disch := omega) only [rowPattern_getLsbD, if_pos, if_neg, Nat.add_sub_cancel_left, Nat.zero_add]

theorem rowPattern_injective {opcode opcode' : BitVec 7} {funct3 funct3' : BitVec 3} {funct7 funct7' : BitVec 7}
    (h : rowPattern opcode funct3 funct7 = rowPattern opcode' funct3' funct7') :
    opcode = opcode' ∧ funct3 = funct3' ∧ funct7 = funct7' := by
  obtain ⟨hopcode, hfunct3, hfunct7⟩ := rowPattern_fields opcode funct3 funct7
  obtain ⟨hopcode', hfunct3', hfunct7'⟩ := rowPattern_fields opcode' funct3' funct7'
  rw [h] at hopcode hfunct3 hfunct7
  exact ⟨hopcode.symm.trans hopcode', hfunct3.symm.trans hfunct3', hfunct7.symm.trans hfunct7'⟩

/-- A mask of the row's constants keeps these fields alone. -/
theorem and_rowPattern (w : Word) (opcode : BitVec 7) (funct3 : BitVec 3) (funct7 : BitVec 7) :
    w &&& rowPattern opcode funct3 funct7 =
      rowPattern (wordOpcode w &&& opcode) (wordFunct3 w &&& funct3) (wordFunct7 w &&& funct7) := by
  refine BitVec.eq_of_getLsbD_eq fun k hk => ?_
  rw [BitVec.getLsbD_and, rowPattern_getLsbD, rowPattern_getLsbD, wordOpcode, wordFunct3, wordFunct7]
  grind

theorem wordFields_of_immMask {w : Word} {opcode : BitVec 7} {funct3 : BitVec 3}
    (h : w &&& 0x0000707F = rowPattern opcode funct3 0) : wordOpcode w = opcode ∧ wordFunct3 w = funct3 := by
  have mask : (0x0000707F : Word) = rowPattern (BitVec.allOnes 7) (BitVec.allOnes 3) 0 := by decide
  rw [mask, and_rowPattern, BitVec.and_allOnes, BitVec.and_allOnes] at h
  obtain ⟨hopcode, hfunct3, -⟩ := rowPattern_injective h
  exact ⟨hopcode, hfunct3⟩

theorem wordFields_of_shiftMask {w : Word} {opcode : BitVec 7} {funct3 : BitVec 3} {funct7 : BitVec 7}
    (h : w &&& 0xFE00707F = rowPattern opcode funct3 funct7) :
    wordOpcode w = opcode ∧ wordFunct3 w = funct3 ∧ wordFunct7 w = funct7 := by
  have mask : (0xFE00707F : Word) = rowPattern (BitVec.allOnes 7) (BitVec.allOnes 3) (BitVec.allOnes 7) := by decide
  rw [mask, and_rowPattern, BitVec.and_allOnes, BitVec.and_allOnes, BitVec.and_allOnes] at h
  exact rowPattern_injective h

/-- A word of an immediate row, put together again from what the row reads. -/
theorem placeImm_fields {w pattern : Word} {opcode : BitVec 7} {funct3 : BitVec 3}
    (hpattern : pattern = rowPattern opcode funct3 0) (hmatch : w &&& 0x0000707F = pattern) :
    placeImm pattern (fieldRd w) (fieldRs1 w) (fieldImm12 w) = w := by
  obtain ⟨hopcode, hfunct3⟩ := wordFields_of_immMask (hmatch.trans hpattern)
  rw [placeImm_eq_encI hpattern, ← hopcode, ← hfunct3]
  exact encodeRecord_decodeRecord .i w

theorem placeFields_fields {w pattern : Word} {opcode : BitVec 7} {funct3 : BitVec 3} {funct7 : BitVec 7}
    (hpattern : pattern = rowPattern opcode funct3 funct7) (hmatch : w &&& 0xFE00707F = pattern) :
    placeFields pattern (fieldRd w) (fieldRs1 w) ((fieldRs2 w).setWidth 32) = w := by
  obtain ⟨hopcode, hfunct3, hfunct7⟩ := wordFields_of_shiftMask (hmatch.trans hpattern)
  rw [placeFields_eq_encR hpattern, ← hopcode, ← hfunct3, ← hfunct7]
  exact encodeRecord_decodeRecord .r w

theorem placeShamt_fields {w pattern : Word} {opcode : BitVec 7} {funct3 : BitVec 3} {funct7 : BitVec 7}
    (hpattern : pattern = rowPattern opcode funct3 funct7) (hmatch : w &&& 0xFE00707F = pattern) :
    placeShamt pattern (fieldRd w) (fieldRs1 w) (fieldShamt w) = w := by
  have hshamt : (fieldShamt w).extractLsb' 0 5 = fieldRs2 w := by
    rw [fieldShamt, fieldRs2]
    grind
  rw [placeShamt_eq_encR hpattern, hshamt, ← placeFields_eq_encR hpattern, placeFields_fields hpattern hmatch]

theorem immInDomainI_fieldImm12 (w : Word) : immInDomainI (fieldImm12 w) = true :=
  (immInDomainI_iff _).2 (decodeRecord_imm_in_domain .i w)

theorem shamtInDomain_fieldShamt (w : Word) : shamtInDomain (fieldShamt w) = true := by
  have small : (w.extractLsb' 20 5).toNat < 2 ^ 5 := BitVec.isLt _
  rw [shamtInDomain, fieldShamt, BitVec.toNat_setWidth, decide_eq_true_iff]
  omega

theorem isNopSpelling_fields {w : Word} (hmatch : w &&& 0x0000707F = 0x00000013) (hne : w ≠ 0x00000013) :
    isNopSpelling (fieldRd w) (fieldRs1 w) (fieldImm12 w) = false := by
  rw [isNopSpelling]
  by_contra h
  obtain ⟨⟨hrd, hrs1⟩, himm⟩ : (fieldRd w = 0 ∧ fieldRs1 w = 0) ∧ fieldImm12 w = 0 := by
    simpa [and_assoc] using h
  apply hne
  rw [← placeImm_fields (opcode := 0b0010011) (funct3 := 0) (by decide) hmatch, hrd, hrs1, himm]
  decide

/-- What the rows read, encoded again, but for `addi`, whose row reads the word of `nop` too. -/
theorem encode_readImmForm {op : RegId → RegId → Word → Instr} {pattern : Word} {funct3 : BitVec 3} {w : Word}
    (hop : ∀ rd rs1 imm, encode (op rd rs1 imm) = placeImm pattern rd rs1 imm ∧ (op rd rs1 imm).wf = immInDomainI imm)
    (hpattern : pattern = rowPattern 0b0010011 funct3 0)
    (hmatch : w &&& 0x0000707F = pattern) : encode (readImmForm op w) = w ∧ (readImmForm op w).wf = true := by
  rw [readImmForm, (hop _ _ _).1, (hop _ _ _).2]
  exact ⟨placeImm_fields hpattern hmatch, immInDomainI_fieldImm12 w⟩

theorem encode_readShiftForm {op : RegId → RegId → Word → Instr} {pattern : Word} {funct3 : BitVec 3}
    {funct7 : BitVec 7} {w : Word}
    (hop : ∀ rd rs1 imm, encode (op rd rs1 imm) = placeShamt pattern rd rs1 imm ∧
      (op rd rs1 imm).wf = shamtInDomain imm)
    (hpattern : pattern = rowPattern 0b0010011 funct3 funct7)
    (hmatch : w &&& 0xFE00707F = pattern) : encode (readShiftForm op w) = w ∧ (readShiftForm op w).wf = true := by
  rw [readShiftForm, (hop _ _ _).1, (hop _ _ _).2]
  exact ⟨placeShamt_fields hpattern hmatch, shamtInDomain_fieldShamt w⟩

theorem encode_read_addi {w : Word} (hne : w ≠ 0x00000013) (hmatch : w &&& 0x0000707F = 0x00000013) :
    encode (readImmForm .addi w) = w ∧ (readImmForm .addi w).wf = true := by
  have hpattern : (0x00000013 : Word) = rowPattern 0b0010011 0 0 := by decide
  refine ⟨placeImm_fields hpattern hmatch, ?_⟩
  rw [readImmForm, Instr.wf, immInDomainI_fieldImm12, isNopSpelling_fields hmatch hne]
  rfl

theorem encode_of_decodeWord {w : Word} {i : Instr} (h : decodeWord w = .instr i) : encode i = w ∧ i.wf = true := by
  by_cases hnop : w = 0x00000013
  · subst hnop
    cases decodeWord_nop.symm.trans h
    exact ⟨rfl, rfl⟩
  rw [decodeWord_of_ne_nop hnop] at h
  obtain ⟨r, hrow, hmatch, rfl⟩ := decodeByRows_eq_instr h
  simp only [decodeRows, List.tail_cons, List.mem_cons, List.not_mem_nil, or_false] at hrow
  rcases hrow with rfl | rfl | rfl | rfl | rfl | rfl | rfl | rfl | rfl | rfl
  · exact encode_read_addi hnop hmatch
  · exact encode_readImmForm (op := .slti) (funct3 := 0b010) (fun _ _ _ => ⟨rfl, rfl⟩) (by decide) hmatch
  · exact encode_readImmForm (op := .sltiu) (funct3 := 0b011) (fun _ _ _ => ⟨rfl, rfl⟩) (by decide) hmatch
  · exact encode_readImmForm (op := .andi) (funct3 := 0b111) (fun _ _ _ => ⟨rfl, rfl⟩) (by decide) hmatch
  · exact encode_readImmForm (op := .ori) (funct3 := 0b110) (fun _ _ _ => ⟨rfl, rfl⟩) (by decide) hmatch
  · exact encode_readImmForm (op := .xori) (funct3 := 0b100) (fun _ _ _ => ⟨rfl, rfl⟩) (by decide) hmatch
  · exact encode_readShiftForm (op := .slli) (funct3 := 0b001) (funct7 := 0b0000000) (fun _ _ _ => ⟨rfl, rfl⟩)
      (by decide) hmatch
  · exact encode_readShiftForm (op := .srli) (funct3 := 0b101) (funct7 := 0b0000000) (fun _ _ _ => ⟨rfl, rfl⟩)
      (by decide) hmatch
  · exact encode_readShiftForm (op := .srai) (funct3 := 0b101) (funct7 := 0b0100000) (fun _ _ _ => ⟨rfl, rfl⟩)
      (by decide) hmatch
  · have hpattern : (0x00000033 : Word) = rowPattern 0b0110011 0 0 := by decide
    exact ⟨placeFields_fields hpattern hmatch, rfl⟩

/-- Settles O30: the operation was read by a row the word matches, whose constants and operands are all of the word. -/
theorem encodeDecodeGivesTheWord : Obligations.EncodeDecodeGivesTheWord := by
  unfold Obligations.EncodeDecodeGivesTheWord
  exact fun w i => encode_of_decodeWord

end Sys2Proof
end

section
/-! SUPPORT. The table-driven lowering (41_instruction_model.md R132) by operand shape: a selector's row, what the
word depends on, and what it stores of a magnitude. -/

namespace Sys2Proof.Machine

/-! ### Rows and selectors -/

theorem lower_of_row {o : Op} {row : OpRow} (h : opTable[o.op.toNat]? = some row) :
    lower o = ⟨lowerRow row o, none⟩ := by
  rw [lower, h]

theorem lower_unmapped {o : Op} (h : 11 ≤ o.op.toNat) : lower o = ⟨0, some (.unsupported o.op)⟩ := by
  have rows : opTable.length = 11 := rfl
  rw [lower, List.getElem?_eq_none (by omega)]

theorem lower_err_of_mapped {o : Op} (h : o.op.toNat ≤ 10) : (lower o).err = none := by
  have noError : ¬ (lower o).err.isSome = true := by
    rw [lower_err_isSome_iff]
    omega
  exact Option.not_isSome_iff_eq_none.1 noError

theorem instrOfOp_isSome {o : Op} (h : o.op.toNat ≤ 10) : (instrOfOp o).isSome = true := by
  by_contra hnone
  have unmapped : 11 ≤ o.op.toNat := instrOfOp_eq_none.1 (Option.not_isSome_iff_eq_none.1 hnone)
  omega

/-- Every selector with a row. -/
theorem row_of_mapped {o : Op} (h : o.op.toNat ≤ 10) : ∃ row ∈ opTable, opTable[o.op.toNat]? = some row := by
  have rows : opTable.length = 11 := rfl
  have hlt : o.op.toNat < opTable.length := by omega
  exact ⟨opTable[o.op.toNat], List.getElem_mem hlt, List.getElem?_eq_getElem hlt⟩

/-- Settles O23: the meaning appends the lowered word, and an operation with a mapping has a row. -/
theorem generalLoweringAgreesWithEachOperation : Obligations.GeneralLoweringAgreesWithEachOperation := by
  unfold Obligations.GeneralLoweringAgreesWithEachOperation
  intro o i s h
  have mapped : o.op.toNat ≤ 10 := by
    by_contra hop
    rw [instrOfOp_eq_none.2 (by omega)] at h
    cases h
  exact ⟨exec_appends_lowered_word h s, lower_err_of_mapped mapped⟩

/-- Settles O24: the table has the eleven rows of the selectors 0 to 10, and a parsed line has one of these. -/
theorem onlyUnmappedSelectorsAreUnsupported : Obligations.OnlyUnmappedSelectorsAreUnsupported := by
  unfold Obligations.OnlyUnmappedSelectorsAreUnsupported
  exact ⟨fun o h => ⟨lower_unmapped h, instrOfOp_eq_none.2 h⟩, fun o h => ⟨lower_err_of_mapped h, instrOfOp_isSome h⟩,
    fun p l o => parseLine_selector_le⟩

/-! ### What reaches the word (R135) -/

/-- Two inputs agree on what a shape reads of them. -/
def OperandShape.Agree (a b : Op) : OperandShape → Prop
  | .immediate => a.rd = b.rd ∧ a.rs1 = b.rs1 ∧ a.imm = b.imm
  | .shift => a.rd = b.rd ∧ a.rs1 = b.rs1 ∧ a.imm = b.imm
  | .fixed => True
  | .registers => a.rd = b.rd ∧ a.rs1 = b.rs1 ∧ a.rs2 = b.rs2

theorem lowerRow_congr {row : OpRow} {a b : Op} (h : row.shape.Agree a b) : lowerRow row a = lowerRow row b := by
  obtain ⟨opcode, funct3, funct7, shape⟩ := row
  cases shape with
  | immediate | shift =>
    obtain ⟨hrd, hrs1, himm⟩ := h
    simp only [lowerRow, hrd, hrs1, himm]
  | fixed => rfl
  | registers =>
    obtain ⟨hrd, hrs1, hrs2⟩ := h
    simp only [lowerRow, hrd, hrs1, hrs2]

theorem lower_congr {a b : Op} (hop : a.op = b.op)
    (h : ∀ row, opTable[a.op.toNat]? = some row → row.shape.Agree a b) : lower a = lower b := by
  unfold lower
  rw [← hop]
  cases hrow : opTable[a.op.toNat]? with
  | none => rfl
  | some row => simp only [lowerRow_congr (h row hrow)]

/-- The nine operations with an immediate operand. -/
theorem shape_of_immediate_selector {n : Nat} (hn : n ≤ 8) {row : OpRow} (hrow : opTable[n]? = some row) :
    row.shape = .immediate ∨ row.shape = .shift := by
  have : ∀ n ≤ 8, ∀ row ∈ opTable[n]?, row.shape = .immediate ∨ row.shape = .shift := by decide
  exact this n hn row hrow

/-- Settles O25: a row's shape says what it reads. -/
theorem ignoredInputsDoNotReachTheWord : Obligations.IgnoredInputsDoNotReachTheWord := by
  unfold Obligations.IgnoredInputsDoNotReachTheWord
  refine fun a b hop => ⟨fun hle hrd hrs1 himm => ?immediate, fun hnop => ?nop, fun hadd hrd hrs1 hrs2 => ?add⟩
  case immediate =>
    refine lower_congr hop fun row hrow => ?_
    obtain h | h := shape_of_immediate_selector hle hrow
    · exact h ▸ ⟨hrd, hrs1, himm⟩
    · exact h ▸ ⟨hrd, hrs1, himm⟩
  case nop =>
    refine lower_congr hop fun row hrow => ?_
    rw [hnop] at hrow
    cases hrow
    trivial
  case add =>
    refine lower_congr hop fun row hrow => ?_
    rw [hadd] at hrow
    cases hrow
    exact ⟨hrd, hrs1, hrs2⟩

/-! ### What the word is -/

theorem wordOpcode_lowerRow (row : OpRow) (o : Op) : wordOpcode (lowerRow row o) = row.opcode := by
  obtain ⟨opcode, funct3, funct7, shape⟩ := row
  cases shape with
  | immediate | shift | fixed => exact (encI_shared_fields ..).1
  | registers => exact (encR_shared_fields ..).1

/-- Settles O27: every row has an opcode other than 0, and its word has that opcode. -/
theorem noOperationLowersToZero : Obligations.NoOperationLowersToZero := by
  unfold Obligations.NoOperationLowersToZero
  intro o herr hzero
  have mapped : o.op.toNat ≤ 10 := by
    by_contra hop
    rw [lower_unmapped (by omega)] at herr
    cases herr
  obtain ⟨row, hmem, hrow⟩ := row_of_mapped mapped
  rw [lower_of_row hrow] at hzero
  have opcodes : ∀ row ∈ opTable, row.opcode ≠ wordOpcode 0 := by decide
  exact opcodes row hmem ((wordOpcode_lowerRow row o).symm.trans (congrArg wordOpcode hzero))

theorem shape_of_nonshift_selector {n : Nat} (hn : n ≤ 5) {row : OpRow} (hrow : opTable[n]? = some row) :
    row.shape = .immediate := by
  have : ∀ n ≤ 5, ∀ row ∈ opTable[n]?, row.shape = .immediate := by decide
  exact this n hn row hrow

theorem toInt_canonImm_i_ofNat (m : Nat) :
    (canonImm .i (BitVec.ofNat 32 m)).toInt =
      if m % 4096 < 2048 then (m % 4096 : Int) else (m % 4096 : Int) - 4096 := by
  rw [toInt_canonImm_i, BitVec.toNat_ofNat, Int.bmod_def]
  omega

theorem lowerRow_of_immediate {row : OpRow} (h : row.shape = .immediate) (o : Op) :
    lowerRow row o = encodeRecord (.i row.opcode o.rd row.funct3 o.rs1 o.imm) := by
  simp only [lowerRow, h, encodeRecord]

/-- Settles O26: the word is an I-format one, which decodes to the canonical immediate (O11's law). -/
theorem magnitudesAreReinterpretedAsSigned : Obligations.MagnitudesAreReinterpretedAsSigned := by
  unfold Obligations.MagnitudesAreReinterpretedAsSigned
  intro o m hop himm
  obtain ⟨row, -, hrow⟩ := row_of_mapped (o := o) (by omega)
  have decoded : (decodeRecord .i (lowerRow row o)).imm = canonImm .i o.imm := by
    rw [lowerRow_of_immediate (shape_of_nonshift_selector hop hrow)]
    exact decodeRecord_encodeRecord_imm (.i row.opcode o.rd row.funct3 o.rs1 o.imm)
  rw [lower_of_row hrow, decoded, himm, toInt_canonImm_i_ofNat]

end Sys2Proof.Machine
end

section
/-! SUPPORT. Numerals and literals (42_parser.md R162, R169): what a digit sequence denotes, and that the decimal and
hexadecimal numerals of a number denote it. -/

namespace Sys2Proof.Machine

/-! ### Digit sequences -/

@[simp] theorem digitsValue_append_digit (base : Nat) (ds : List Byte) (c : Byte) :
    digitsValue base (ds ++ [c]) = digitsValue base ds * base + digitValue c := by
  simp [digitsValue]

/-- A leading zero changes nothing. -/
theorem digitsValue_zero_cons (base : Nat) (ds : List Byte) :
    digitsValue base (0x30#8 :: ds) = digitsValue base ds := by
  have first : 0 * base + digitValue 0x30#8 = 0 := by rw [Nat.zero_mul]; rfl
  rw [digitsValue, List.foldl_cons, first, digitsValue]

/-- The digits of base ten have their values. -/
theorem decDigit_spec {d : Nat} (h : d < 10) : isDecDigit (decDigit d) = true ∧ digitValue (decDigit d) = d := by
  have : ∀ d < 10, isDecDigit (decDigit d) = true ∧ digitValue (decDigit d) = d := by decide
  exact this d h

theorem hexDigit_spec {d : Nat} (h : d < 16) (upper : Bool) :
    isHexDigit (hexDigit upper d) = true ∧ digitValue (hexDigit upper d) = d := by
  have : ∀ d < 16, ∀ upper, isHexDigit (hexDigit upper d) = true ∧ digitValue (hexDigit upper d) = d := by decide
  exact this d h upper

/-! ### Numerals -/

/-- One or more digits of a base that denote `n`. -/
def Denotes (isDigit : Byte → Bool) (base : Nat) (ds : List Byte) (n : Nat) : Prop :=
  ds ≠ [] ∧ (∀ c ∈ ds, isDigit c = true) ∧ digitsValue base ds = n

theorem Denotes.digit {isDigit : Byte → Bool} {base : Nat} {c : Byte} {d : Nat}
    (h : isDigit c = true ∧ digitValue c = d) : Denotes isDigit base [c] d := by
  obtain ⟨hdigit, hvalue⟩ := h
  exact ⟨List.cons_ne_nil _ _, List.forall_mem_singleton.2 hdigit, by simpa [digitsValue] using hvalue⟩

theorem Denotes.append_digit {isDigit : Byte → Bool} {base : Nat} {ds : List Byte} {c : Byte} {n d : Nat}
    (hds : Denotes isDigit base ds n) (hc : isDigit c = true ∧ digitValue c = d) :
    Denotes isDigit base (ds ++ [c]) (n * base + d) := by
  obtain ⟨-, hall, rfl⟩ := hds
  obtain ⟨hdigit, rfl⟩ := hc
  exact ⟨by simp, List.forall_mem_append.2 ⟨hall, List.forall_mem_singleton.2 hdigit⟩, digitsValue_append_digit ..⟩

theorem Denotes.zero_cons {isDigit : Byte → Bool} {base : Nat} {ds : List Byte} {n : Nat}
    (hds : Denotes isDigit base ds n) (hzero : isDigit 0x30#8 = true) : Denotes isDigit base (0x30#8 :: ds) n := by
  obtain ⟨-, hall, rfl⟩ := hds
  exact ⟨List.cons_ne_nil _ _, List.forall_mem_cons.2 ⟨hzero, hall⟩, digitsValue_zero_cons base ds⟩

theorem decimal_denotes {fuel n : Nat} (h : n < 10 ^ (fuel + 1)) : Denotes isDecDigit 10 (decimal fuel n) n := by
  induction fuel generalizing n with
  | zero =>
    rw [decimal, Nat.mod_eq_of_lt (by simpa using h)]
    exact .digit (decDigit_spec (by simpa using h))
  | succ fuel ih =>
    unfold decimal
    split_ifs with hn
    · exact .digit (decDigit_spec hn)
    · have higher : n / 10 < 10 ^ (fuel + 1) := Nat.div_lt_of_lt_mul (by rwa [← Nat.pow_succ'])
      have value := (ih higher).append_digit (decDigit_spec (Nat.mod_lt n (by decide)))
      rwa [Nat.mul_comm, Nat.div_add_mod] at value

theorem hexadecimal_denotes (upper : Bool) {fuel n : Nat} (h : n < 16 ^ (fuel + 1)) :
    Denotes isHexDigit 16 (hexadecimal upper fuel n) n := by
  induction fuel generalizing n with
  | zero =>
    rw [hexadecimal, Nat.mod_eq_of_lt (by simpa using h)]
    exact .digit (hexDigit_spec (by simpa using h) upper)
  | succ fuel ih =>
    unfold hexadecimal
    split_ifs with hn
    · exact .digit (hexDigit_spec hn upper)
    · have higher : n / 16 < 16 ^ (fuel + 1) := Nat.div_lt_of_lt_mul (by rwa [← Nat.pow_succ'])
      have value := (ih higher).append_digit (hexDigit_spec (Nat.mod_lt n (by decide)) upper)
      rwa [Nat.mul_comm, Nat.div_add_mod] at value

/-! ### Literals -/

theorem Denotes.decimal_literal {ds : List Byte} {n : Nat} (h : Denotes isDecDigit 10 ds n) : Literal ds n := by
  obtain ⟨hne, hall, rfl⟩ := h
  exact .decimal ds hne hall

theorem literal_decimal (n : Nat) (h : n < 2 ^ 32) : Literal (decimal 9 n) n :=
  (decimal_denotes (by omega)).decimal_literal

/-- A literal that does not begin with `0x` is a decimal one. -/
theorem denotes_of_literal {ds : List Byte} {n : Nat} (h : Literal ds n) (h0x : ds.take 2 ≠ ascii ['0', 'x']) :
    Denotes isDecDigit 10 ds n := by
  cases h with
  | decimal _ hne hall => exact ⟨hne, hall, rfl⟩
  | hex hs => exact absurd rfl h0x

/-- After `0x` a literal is hex digits. -/
theorem literalValue_hexPrefix_iff (hs : List Byte) (n : Nat) :
    literalValue (ascii ['0', 'x'] ++ hs) = some n ↔ Denotes isHexDigit 16 hs n := by
  have h0x : (ascii ['0', 'x'] ++ hs).take 2 = ascii ['0', 'x'] := rfl
  have hdrop : (ascii ['0', 'x'] ++ hs).drop 2 = hs := rfl
  rw [literalValue, if_pos h0x, hdrop]
  simp only [List.all_eq_true, Option.ite_none_right_eq_some, Option.some.injEq, Denotes, and_assoc]

/-- A literal begins with a decimal digit. -/
theorem literal_head {c : Byte} {ds : List Byte} {n : Nat} (h : Literal (c :: ds) n) : isDecDigit c = true := by
  generalize htok : c :: ds = tok at h
  cases h with
  | decimal _ _ hall => exact hall c (htok ▸ List.mem_cons_self)
  | hex hs =>
    obtain ⟨rfl, -⟩ := List.cons.inj htok
    decide

theorem literalValue_eq_none_of_head {c : Byte} (hc : isDecDigit c = false) (ds : List Byte) :
    literalValue (c :: ds) = none := by
  refine Option.eq_none_iff_forall_ne_some.2 fun n h => ?_
  rw [literal_head ((literalValue_eq_some_iff _ n).1 h)] at hc
  cases hc

theorem immOfMagnitude_of_lt (p : LitOvf) {m : Nat} (h : m < 2 ^ 32) : immOfMagnitude p m = some (BitVec.ofNat 32 m) :=
  if_pos h

/-- Settles O32: in each base, what one more digit, a leading zero and a numeral denote; then what the parser passes. -/
theorem literalsDenoteTheirMagnitude : Obligations.LiteralsDenoteTheirMagnitude := by
  unfold Obligations.LiteralsDenoteTheirMagnitude
  intro hexPrefix
  refine ⟨literalValue_eq_some_iff, fun n hn => ?decimal, fun upper n hn => ?hexadecimal,
    fun upper hs m d hd hm => ?digit, fun ds m hds h0x => ?zeroDecimal, fun hs m hm => ?zeroHex, fun ds => ?sign, rfl, fun p m hm => ?below,
    fun m hm => ?above⟩
  case decimal => exact (literalValue_eq_some_iff _ n).2 (literal_decimal n hn)
  case hexadecimal => exact (literalValue_hexPrefix_iff _ n).2 (hexadecimal_denotes upper (by omega))
  case digit =>
    have value := ((literalValue_hexPrefix_iff hs m).1 hm).append_digit (hexDigit_spec hd upper)
    rw [List.append_assoc, Nat.mul_comm]
    exact (literalValue_hexPrefix_iff _ _).2 value
  case zeroDecimal =>
    exact (literalValue_eq_some_iff _ m).2 ((denotes_of_literal hds h0x).zero_cons rfl).decimal_literal
  case zeroHex => exact (literalValue_hexPrefix_iff _ m).2 (((literalValue_hexPrefix_iff hs m).1 hm).zero_cons rfl)
  case sign => exact ⟨literalValue_eq_none_of_head rfl ds, literalValue_eq_none_of_head rfl ds⟩
  case below => exact immOfMagnitude_of_lt p hm
  case above =>
    have notBelow : ¬ m < 2 ^ 32 := by omega
    rw [immOfMagnitude, immOfMagnitude, if_neg notBelow, if_neg notBelow]
    exact ⟨congrArg some (BitVec.eq_of_toNat_eq (by simp)), rfl⟩

end Sys2Proof.Machine
end

section
/-! SUPPORT. The register identifier table (10_state.md R20 to R24): the canonical names and the ABI rows. -/

namespace Sys2Proof.Machine

/-- The table row by row: the canonical name of each id, then the ABI names. -/
theorem mem_regNames_iff (name : List Byte) (id : RegId) :
    (name, id) ∈ regNames ↔ name = nameOf id ∨ (name, id) ∈ abiNames := by
  rw [regNames, List.mem_append, List.mem_map]
  refine or_congr_left ⟨?_, fun h => ⟨id.toNat, List.mem_range.2 id.isLt, ?_⟩⟩
  · rintro ⟨n, -, h⟩
    obtain ⟨rfl, rfl⟩ := Prod.mk.inj h
    rfl
  · rw [BitVec.ofNat_toNat, BitVec.setWidth_eq, h]

theorem regOf_nameOf (id : RegId) : regOf (nameOf id) = some id :=
  (regOf_eq_some_iff_mem _ _).2 ((mem_regNames_iff _ _).2 (.inl rfl))

theorem nameOf_injective {id id' : RegId} (h : nameOf id = nameOf id') : id = id' :=
  Option.some.inj ((regOf_nameOf id).symm.trans (h ▸ regOf_nameOf id'))

theorem decDigit_eq_digitChar {d : Nat} (h : d < 10) : [decDigit d] = ascii [d.digitChar] := by
  have : ∀ d < 10, [decDigit d] = ascii [d.digitChar] := by decide
  exact this d h

/-- The decimal numeral is Lean's own. -/
theorem decimal_eq_toDigits {fuel n : Nat} (h : n < 10 ^ (fuel + 1)) : decimal fuel n = ascii (Nat.toDigits 10 n) := by
  induction fuel generalizing n with
  | zero =>
    have hn : n < 10 := by simpa using h
    rw [decimal, Nat.mod_eq_of_lt hn, Nat.toDigits_of_lt_base hn, decDigit_eq_digitChar hn]
  | succ fuel ih =>
    unfold decimal
    split_ifs with hn
    · rw [Nat.toDigits_of_lt_base hn, decDigit_eq_digitChar hn]
    · have higher : n / 10 < 10 ^ (fuel + 1) := Nat.div_lt_of_lt_mul (by rwa [← Nat.pow_succ'])
      rw [Nat.toDigits_of_base_le (n := n) (by decide) (by omega), ih higher,
        decDigit_eq_digitChar (Nat.mod_lt n (by decide)), ascii, ascii, ascii, List.map_append]

/-- Settles O31: the table has the canonical names and the 33 rows of R22, each name once. -/
theorem regOfIsDefinedExactlyOnTheNames : Obligations.RegOfIsDefinedExactlyOnTheNames := by
  unfold Obligations.RegOfIsDefinedExactlyOnTheNames
  intro abi
  have rows : abiNames = abi.map fun row => (ascii row.1.toList, row.2) := by decide
  refine ⟨fun name id => ?names, fun id => ?canonical, regOf_nameOf, fun id id' => nameOf_injective⟩
  case names =>
    rw [regOf_eq_some_iff_mem, mem_regNames_iff, rows, List.mem_map]
    refine or_congr_right ⟨?_, ?_⟩
    · rintro ⟨⟨n, _⟩, hrow, heq⟩
      obtain ⟨rfl, rfl⟩ := Prod.mk.inj heq
      exact ⟨n, hrow, rfl⟩
    · rintro ⟨n, hrow, rfl⟩
      exact ⟨(n, id), hrow, rfl⟩
  case canonical =>
    have below : id.toNat < 2 ^ 5 := id.isLt
    rw [nameOf, decimal_eq_toDigits (by omega)]
    rfl

end Sys2Proof.Machine
end

section
/-! SUPPORT. The lines of an input (42_parser.md R160): the pieces that its newlines cut it into. -/

namespace Sys2Proof.Machine

/-- The piece before the first newline. -/
theorem pieces_append_newline {l : List Byte} (h : newline ∉ l) (rest : List Byte) :
    pieces (l ++ newline :: rest) = l :: pieces rest := by
  induction l with
  | nil => exact if_pos rfl
  | cons c l ih =>
    obtain ⟨hc, hl⟩ : newline ≠ c ∧ newline ∉ l := by simpa using h
    rw [List.cons_append, pieces, if_neg (Ne.symm hc), ih hl]

theorem pieces_of_no_newline {l : List Byte} (h : newline ∉ l) : pieces l = [l] := by
  induction l with
  | nil => rfl
  | cons c l ih =>
    obtain ⟨hc, hl⟩ : newline ≠ c ∧ newline ∉ l := by simpa using h
    rw [pieces, if_neg (Ne.symm hc), ih hl]

/-- Lines each followed by a newline, then a rest. -/
theorem pieces_lines {ls : List (List Byte)} (h : ∀ l ∈ ls, newline ∉ l) {last : List Byte} (hlast : newline ∉ last) :
    pieces ((ls.flatMap fun l => l ++ [newline]) ++ last) = ls ++ [last] := by
  induction ls with
  | nil => exact pieces_of_no_newline hlast
  | cons l ls ih =>
    obtain ⟨hl, hls⟩ := List.forall_mem_cons.1 h
    rw [List.flatMap_cons, List.append_assoc, List.append_assoc, List.singleton_append, pieces_append_newline hl,
      ih hls, List.cons_append]

theorem linesOf_of_last_newline {ls : List (List Byte)} (h : ∀ l ∈ ls, newline ∉ l) :
    linesOf (ls.flatMap fun l => l ++ [newline]) = ls := by
  have hpieces := pieces_lines h (last := []) (by simp)
  rw [List.append_nil] at hpieces
  obtain rfl | ⟨init, l, rfl⟩ := List.eq_nil_or_concat' ls
  · rfl
  · have hlast : ((init ++ [l]).flatMap fun l => l ++ [newline]).getLast? = some newline := by simp
    rw [linesOf, if_neg (by simp), if_pos hlast, hpieces, List.dropLast_concat]

theorem linesOf_of_rest {ls : List (List Byte)} (h : ∀ l ∈ ls, newline ∉ l) {last : List Byte} (hlast : newline ∉ last)
    (hne : last ≠ []) : linesOf ((ls.flatMap fun l => l ++ [newline]) ++ last) = ls ++ [last] := by
  have noNewline : ((ls.flatMap fun l => l ++ [newline]) ++ last).getLast? ≠ some newline := by
    rw [List.getLast?_append_of_ne_nil _ hne]
    exact fun hl => hlast (List.mem_of_getLast? hl)
  rw [linesOf, if_neg (by simp [hne]), if_neg noNewline, pieces_lines h hlast]

theorem exists_lines_and_rest (b : List Byte) : ∃ (ls : List (List Byte)) (last : List Byte),
    (∀ l ∈ ls, newline ∉ l) ∧ newline ∉ last ∧ b = (ls.flatMap fun l => l ++ [newline]) ++ last := by
  induction b with
  | nil => exact ⟨[], [], by simp, by simp, rfl⟩
  | cons c b ih =>
    obtain ⟨ls, last, hls, hlast, rfl⟩ := ih
    by_cases hc : c = newline
    · exact ⟨[] :: ls, last, by simpa using hls, hlast, by simp [hc]⟩
    · cases ls with
      | nil => exact ⟨[], c :: last, by simp, by simp [hlast, Ne.symm hc], rfl⟩
      | cons l ls =>
        obtain ⟨hl, hls⟩ := List.forall_mem_cons.1 hls
        exact ⟨(c :: l) :: ls, last, List.forall_mem_cons.2 ⟨by simp [hl, Ne.symm hc], hls⟩, hlast, rfl⟩

/-- Settles O33: pieces are cut at newlines, and the empty piece after a last newline is no line. -/
theorem linesAreThePiecesBetweenNewlines : Obligations.LinesAreThePiecesBetweenNewlines := by
  unfold Obligations.LinesAreThePiecesBetweenNewlines
  exact ⟨fun ls => linesOf_of_last_newline, fun ls last hls => linesOf_of_rest hls, exists_lines_and_rest⟩

end Sys2Proof.Machine
end

section
/-! SUPPORT. The lines the parser accepts (42_parser.md R162): their bytes, and the canonical spelling of an
operation (R174) among them. -/

namespace Sys2Proof.Machine

/-- Settles O34: every line that parses is one of the grammar, and every line of the grammar parses. -/
theorem parserAcceptsExactlyTheGrammar : Obligations.ParserAcceptsExactlyTheGrammar := by
  unfold Obligations.ParserAcceptsExactlyTheGrammar
  exact parseLine_eq_some_iff_isLine

/-- Settles O35: the statement is the one the parser gives. -/
theorem theGrammarIsUnambiguous : Obligations.TheGrammarIsUnambiguous := by
  unfold Obligations.TheGrammarIsUnambiguous
  exact fun p l o o' h h' => Option.some.inj ((parseLine_of_isLine h).symm.trans (parseLine_of_isLine h'))

/-! ### The bytes of a line (R171) -/

/-- A byte that some token of the grammar has, a blank or the comma. -/
def isGrammarByte (c : Byte) : Bool :=
  decide (isBlank c = true ∨ c = comma ∨
    c ∈ ascii ['a', 'b', 'c', 'd', 'e', 'f', 'g', 'i', 'l', 'n', 'o', 'p', 'r', 's', 't', 'u', 'x', 'z'] ∨
    (0x30 ≤ c.toNat ∧ c.toNat ≤ 0x39) ∨ (0x41 ≤ c.toNat ∧ c.toNat ≤ 0x46))

theorem isGrammarByte_of_decDigit {c : Byte} (h : isDecDigit c = true) : isGrammarByte c = true :=
  decide_eq_true (.inr (.inr (.inr (.inl (of_decide_eq_true h)))))

theorem isGrammarByte_of_hexDigit {c : Byte} (h : isHexDigit c = true) : isGrammarByte c = true := by
  unfold isHexDigit at h
  rw [Bool.or_eq_true, Bool.or_eq_true, decide_eq_true_iff, decide_eq_true_iff] at h
  obtain (hdec | hlower) | hupper := h
  · exact isGrammarByte_of_decDigit hdec
  · have letters : ∀ d < 6, isGrammarByte (BitVec.ofNat 8 (0x61 + d)) = true := by decide
    have hletter := letters (c.toNat - 0x61) (by omega)
    rwa [Nat.add_sub_cancel' hlower.1, BitVec.ofNat_toNat, BitVec.setWidth_eq] at hletter
  · exact decide_eq_true (.inr (.inr (.inr (.inr hupper))))

theorem blanks_grammarBytes {b : List Byte} (h : Blanks b) : b.all isGrammarByte = true :=
  List.all_eq_true.2 fun c hc => decide_eq_true (.inl (by simpa [isBlank] using h c hc))

theorem regName_grammarBytes {n : List Byte} {id : RegId} (h : (n, id) ∈ regNames) : n.all isGrammarByte = true := by
  have names : regNames.all (fun row => row.1.all isGrammarByte) = true := by decide
  exact List.all_eq_true.1 names _ h

theorem mnemonic_grammarBytes {mn : List Byte} {op : BitVec 4} (h : (mn, op) ∈ mnemonics) :
    mn.all isGrammarByte = true := by
  have names : mnemonics.all (fun row => row.1.all isGrammarByte) = true := by decide
  exact List.all_eq_true.1 names _ h

theorem literal_grammarBytes {tok : List Byte} {m : Nat} (h : Literal tok m) : tok.all isGrammarByte = true := by
  cases h with
  | decimal _ _ hd => exact List.all_eq_true.2 fun c hc => isGrammarByte_of_decDigit (hd c hc)
  | hex hs _ hd =>
    have h0x : (ascii ['0', 'x']).all isGrammarByte = true := by decide
    have hdigits : hs.all isGrammarByte = true := List.all_eq_true.2 fun c hc => isGrammarByte_of_hexDigit (hd c hc)
    rw [List.all_append, h0x, hdigits, Bool.and_self]

theorem twoRegs_grammarBytes {regs : List Byte} {rd rs1 : RegId} (h : TwoRegs regs rd rs1) :
    regs.all isGrammarByte = true := by
  have hcomma : [comma].all isGrammarByte = true := by decide
  cases h with
  | mk ws n1 ows1 n2 ows2 _ _ _ hws hn1 hows1 hn2 hows2 =>
    simp only [List.all_append, hcomma, blanks_grammarBytes hws, regName_grammarBytes hn1, blanks_grammarBytes hows1,
      regName_grammarBytes hn2, blanks_grammarBytes hows2, Bool.and_self]

theorem isLine_grammarBytes {p : LitOvf} {l : List Byte} {o : Op} (h : IsLine p l o) : l.all isGrammarByte = true := by
  obtain ⟨body, trail, rfl, htrail, hbody⟩ := h
  rw [List.all_append, blanks_grammarBytes htrail, Bool.and_true]
  cases hbody with
  | immediate mn regs lit _ _ _ _ _ hmn _ hregs hlit =>
    simp only [List.all_append, mnemonic_grammarBytes hmn, twoRegs_grammarBytes hregs, literal_grammarBytes hlit,
      Bool.and_self]
  | add regs n3 _ _ _ hregs hn =>
    simp only [List.all_append, mnemonic_grammarBytes ((mnemonic_add_iff _).2 rfl), twoRegs_grammarBytes hregs,
      regName_grammarBytes hn, Bool.and_self]
  | nop => exact mnemonic_grammarBytes ((mnemonic_nop_iff _).2 rfl)

/-- Settles O38: the line is one of the grammar, whose every piece has only such bytes. -/
theorem onlyGrammarBytesAreAccepted : Obligations.OnlyGrammarBytesAreAccepted := by
  unfold Obligations.OnlyGrammarBytesAreAccepted
  exact fun p l o h c hc => of_decide_eq_true (List.all_eq_true.1 (isLine_grammarBytes (isLine_of_parseLine h)) c hc)

/-! ### Canonical spellings (R174) -/

theorem nameOf_mem_regNames (id : RegId) : (nameOf id, id) ∈ regNames :=
  (mem_regNames_iff _ _).2 (.inl rfl)

theorem blanks_space : Blanks [0x20] := fun _ hc => .inl (List.mem_singleton.1 hc)

theorem twoRegs_spelling (rd rs1 : RegId) :
    TwoRegs ([0x20] ++ nameOf rd ++ separator ++ nameOf rs1 ++ separator) rd rs1 := by
  have spelled := TwoRegs.mk [0x20] (nameOf rd) [0x20] (nameOf rs1) [0x20] rd rs1 (List.cons_ne_nil _ _) blanks_space
    (nameOf_mem_regNames rd) blanks_space (nameOf_mem_regNames rs1) blanks_space
  simpa [separator] using spelled

theorem immOfMagnitude_toNat (p : LitOvf) (imm : Word) : immOfMagnitude p imm.toNat = some imm := by
  rw [immOfMagnitude_of_lt p imm.isLt, BitVec.ofNat_toNat, BitVec.setWidth_eq]

theorem statement_spellImmForm (p : LitOvf) {mn : List Char} {op : BitVec 4}
    (hmn : (ascii mn, op) ∈ mnemonics ∧ op.toNat ≤ 8) (rd rs1 : RegId) (imm : Word) : Statement p (spellImmForm mn rd rs1 imm) ⟨op, rd, rs1, 0, imm⟩ := by
  have spelled := Statement.immediate _ _ _ op rd rs1 imm.toNat imm hmn.1 hmn.2 (twoRegs_spelling rd rs1)
    (literal_decimal imm.toNat imm.isLt) (immOfMagnitude_toNat p imm)
  simpa [spellImmForm] using spelled

theorem statement_spell (p : LitOvf) (i : Instr) : Statement p (spell i) (opOfInstr i) := by
  cases i with
  | addi rd rs1 imm => exact statement_spellImmForm p (by decide) rd rs1 imm
  | slti rd rs1 imm => exact statement_spellImmForm p (by decide) rd rs1 imm
  | sltiu rd rs1 imm => exact statement_spellImmForm p (by decide) rd rs1 imm
  | andi rd rs1 imm => exact statement_spellImmForm p (by decide) rd rs1 imm
  | ori rd rs1 imm => exact statement_spellImmForm p (by decide) rd rs1 imm
  | xori rd rs1 imm => exact statement_spellImmForm p (by decide) rd rs1 imm
  | slli rd rs1 imm => exact statement_spellImmForm p (by decide) rd rs1 imm
  | srli rd rs1 imm => exact statement_spellImmForm p (by decide) rd rs1 imm
  | srai rd rs1 imm => exact statement_spellImmForm p (by decide) rd rs1 imm
  | nop => exact .nop
  | add rd rs1 rs2 =>
    have spelled := Statement.add (p := p) _ _ rd rs1 rs2 (twoRegs_spelling rd rs1) (nameOf_mem_regNames rs2)
    simpa [spell, opOfInstr] using spelled

theorem isLine_spell (p : LitOvf) (i : Instr) : IsLine p (spell i) (opOfInstr i) :=
  ⟨spell i, [], (List.append_nil _).symm, fun _ hc => absurd hc List.not_mem_nil, statement_spell p i⟩

theorem parseLine_spell (p : LitOvf) (i : Instr) : parseLine p (spell i) = some (opOfInstr i) :=
  parseLine_of_isLine (isLine_spell p i)

/-- The fields an immediate operation ignores are 0 in what the parser gives, as in what an operation stands for. -/
theorem exists_instr_of_immediate {op : BitVec 4} (h : op.toNat ≤ 8) (rd rs1 : RegId) (imm : Word) :
    ∃ i, opOfInstr i = ⟨op, rd, rs1, 0, imm⟩ := by
  have selectors : ∀ op : BitVec 4, op.toNat ≤ 8 → op = 0 ∨ op = 1 ∨ op = 2 ∨ op = 3 ∨ op = 4 ∨ op = 5 ∨ op = 6 ∨
      op = 7 ∨ op = 8 := by decide
  obtain rfl | rfl | rfl | rfl | rfl | rfl | rfl | rfl | rfl := selectors op h
  · exact ⟨.addi rd rs1 imm, rfl⟩
  · exact ⟨.slti rd rs1 imm, rfl⟩
  · exact ⟨.sltiu rd rs1 imm, rfl⟩
  · exact ⟨.andi rd rs1 imm, rfl⟩
  · exact ⟨.ori rd rs1 imm, rfl⟩
  · exact ⟨.xori rd rs1 imm, rfl⟩
  · exact ⟨.slli rd rs1 imm, rfl⟩
  · exact ⟨.srli rd rs1 imm, rfl⟩
  · exact ⟨.srai rd rs1 imm, rfl⟩

theorem exists_instr_of_isLine {p : LitOvf} {l : List Byte} {o : Op} (h : IsLine p l o) : ∃ i, opOfInstr i = o := by
  obtain ⟨_, _, -, -, hbody⟩ := h
  cases hbody with
  | immediate _ _ _ _ rd rs1 _ imm _ hop => exact exists_instr_of_immediate hop rd rs1 imm
  | add _ _ rd rs1 rs2 => exact ⟨.add rd rs1 rs2, rfl⟩
  | nop => exact ⟨.nop, rfl⟩

/-- Settles O39: the spelling is a line of the grammar, and a parsed line stands for an operation. -/
theorem canonicalSpellingParsesToTheSameOperation : Obligations.CanonicalSpellingParsesToTheSameOperation := by
  unfold Obligations.CanonicalSpellingParsesToTheSameOperation
  refine ⟨parseLine_spell, fun p l o h => ?_⟩
  obtain ⟨i, rfl⟩ := exists_instr_of_isLine (isLine_of_parseLine h)
  exact ⟨i, instrOfOp_opOfInstr i, parseLine_spell p i⟩

end Sys2Proof.Machine
end

section
/-! SUPPORT. What one request of the host does (43_pass_and_emitter.md R197, R199; 70_reset_and_hazards.md R240): the
step as a whole, and the pass state that every pass leaves. -/

namespace Sys2Proof.Machine

/-! ### One step -/

theorem step_of_no_request {s : State} (h : s.requests = []) : step s = .next s := by
  rw [step, h]

theorem step_of_request {s : State} {r : Request} {rs : List Request} (h : s.requests = r :: rs) :
    step s = runRequest Config.litOvf r { s with requests := rs } := by
  rw [step, h]

theorem step_of_reset {s : State} {rs : List Request} (h : s.requests = .reset :: rs) :
    step s = .next { s with pass := PassState.reset, requests := rs } := by
  rw [step_of_request h, runRequest]

/-- Settles O1: `PassState.reset` written out, where a reset and a pass put it. -/
theorem resetWritesThePassStateAndNothingElse : Obligations.ResetWritesThePassStateAndNothingElse := by
  unfold Obligations.ResetWritesThePassStateAndNothingElse
  exact ⟨rfl, beginPass_pass, fun s rs => step_of_reset⟩

/-- Settles O2: the request writes the port's inputs, of which the outputs are a function. -/
theorem directUseDrivesOnePortAndNoPassState : Obligations.DirectUseDrivesOnePortAndNoPassState := by
  unfold Obligations.DirectUseDrivesOnePortAndNoPassState
  exact ⟨fun s rs p h => ⟨_, step_of_request h, rfl, rfl⟩, fun s rs p h => ⟨_, step_of_request h, rfl, rfl⟩,
    fun s rs o h => ⟨_, step_of_request h, rfl, rfl⟩, fun s => step_of_no_request⟩

/-! ### Every pass -/

/-- The inversion of a pass: it leaves a whole record of itself, the same from every state, and the word list empty. -/
theorem runPass_eq_next (p : LitOvf) (input : List Byte) (rdFail : Bool) (wrFail : Option Nat) :
    ∃ result, PassConsistent p result ∧ result.phase ≠ .idle ∧
      ∀ s, runPass p input rdFail wrFail s = .next { s with pass := result, words := [] } := by
  cases rdFail with
  | true =>
    refine ⟨_, ?_, ?_, runPass_of_readFail p input wrFail⟩
    · exact ⟨rfl, rfl, rfl, rfl⟩
    · simp
  | false =>
    cases h : parse p input with
    | fail k =>
      refine ⟨_, ?_, ?_, runPass_of_parse_fail h wrFail⟩
      · exact ⟨h, rfl, rfl⟩
      · simp
    | ok prog =>
      cases wrFail with
      | none =>
        refine ⟨_, ?_, ?_, runPass_of_no_failure h⟩
        · exact ⟨rfl, h, rfl⟩
        · simp
      | some j =>
        have cut : (intendedOutput prog).take j = (intendedOutput prog).take (min j (4 * prog.length)) := by
          rw [← intendedOutput_length, List.take_eq_take_iff, min_assoc, min_self]
        refine ⟨_, ?_, ?_, runPass_of_write_fail h j⟩
        · exact ⟨rfl, h, Nat.min_le_right _ _, cut⟩
        · simp

/-- A pass's record is Done with no error or Failed with one. -/
theorem phase_of_passConsistent {p : LitOvf} {r : PassState} (h : PassConsistent p r) (hidle : r.phase ≠ .idle) :
    (r.phase = .done ∧ r.err = none) ∨ (r.phase = .failed ∧ r.err.isSome = true) := by
  unfold PassConsistent at h
  cases hphase : r.phase with
  | idle => exact absurd hphase hidle
  | done =>
    rw [hphase] at h
    exact .inl ⟨rfl, h.1⟩
  | failed =>
    rw [hphase] at h
    cases herr : r.err with
    | none => rw [herr] at h; exact h.elim
    | some e => exact .inr ⟨rfl, rfl⟩

theorem step_of_pass_eq_next {s : State} {rs : List Request} {input : List Byte} {rdFail : Bool} {wrFail : Option Nat}
    (h : s.requests = .pass input rdFail wrFail :: rs) :
    ∃ result, PassConsistent Config.litOvf result ∧
      ((result.phase = .done ∧ result.err = none) ∨ (result.phase = .failed ∧ result.err.isSome = true)) ∧
      step s = .next { s with pass := result, words := [], requests := rs } := by
  obtain ⟨result, hconsistent, hidle, hrun⟩ := runPass_eq_next Config.litOvf input rdFail wrFail
  exact ⟨result, hconsistent, phase_of_passConsistent hconsistent hidle, (step_of_pass h).trans (hrun _)⟩

/-- Settles O49: the record of the pass, in place of the pass state. -/
theorem everyPassEndsDoneOrFailed : Obligations.EveryPassEndsDoneOrFailed := by
  unfold Obligations.EveryPassEndsDoneOrFailed
  intro s rs input rdFail wrFail hreq
  obtain ⟨result, -, hphase, hstep⟩ := step_of_pass_eq_next hreq
  refine ⟨_, hstep, ?_⟩
  obtain ⟨hdone, herr⟩ | ⟨hfailed, herr⟩ := hphase
  · simp [hdone, herr]
  · simp [hfailed, Option.isSome_iff_ne_none.1 herr]

/-- Settles O50: the record of a pass is the same from every state. -/
theorem passResultIsIndependentOfTheStateBefore : Obligations.PassResultIsIndependentOfTheStateBefore := by
  unfold Obligations.PassResultIsIndependentOfTheStateBefore
  intro s u rs us input rdFail wrFail hs hu
  obtain ⟨result, -, -, hrun⟩ := runPass_eq_next Config.litOvf input rdFail wrFail
  exact ⟨_, _, (step_of_pass hs).trans (hrun _), (step_of_pass hu).trans (hrun _), rfl, rfl⟩

/-- Settles O45: the equation of a pass whose read fails. -/
theorem readFailureEndsThePassFirst : Obligations.ReadFailureEndsThePassFirst := by
  unfold Obligations.ReadFailureEndsThePassFirst
  exact fun s rs input wrFail hreq => ⟨_, (step_of_pass hreq).trans (runPass_of_readFail _ input wrFail _), rfl⟩

/-- Settles O48: both passes come to stage 4 with the same words. -/
theorem writeFailureLeavesExactlyThePrefix : Obligations.WriteFailureLeavesExactlyThePrefix := by
  unfold Obligations.WriteFailureLeavesExactlyThePrefix
  intro s u rs us input prog j hs hu hparse hj
  refine ⟨_, _, (step_of_pass hs).trans (runPass_of_write_fail hparse j _),
    (step_of_pass hu).trans (runPass_of_no_failure hparse _), ?_, ?_⟩
  · rw [min_eq_left hj]
    rfl
  · simpa using hj

/-- Settles O51: the first operation with no row is the first with no mapping, and stage 4 finds the phase `Failed`. -/
theorem firstUnmappedOperationFailsThePass : Obligations.FirstUnmappedOperationFailsThePass := by
  unfold Obligations.FirstUnmappedOperationFailsThePass
  intro before after o s wrFail hbefore ho
  have first : (before ++ o :: after).find? (fun o => (lower o).err.isSome) = some o := by
    refine List.find?_eq_some_iff_append.2 ⟨(lower_err_isSome_iff o).2 ho, before, after, rfl, fun a ha => ?_⟩
    rw [lower_err_of_mapped (hbefore a ha)]
    rfl
  obtain ⟨ws, hws⟩ := lowerAll_of_first_unlowered first s
  exact ⟨_, hws, rfl, emitStage_of_failed wrFail (failPass_phase _ _)⟩

/-! ### The invariant (43_pass_and_emitter.md section 2) -/

/-- Settles O52: both clauses are the reset values. -/
theorem passConsistencyHoldsAtReset : Obligations.PassConsistencyHoldsAtReset := by
  unfold Obligations.PassConsistencyHoldsAtReset
  exact ⟨rfl, rfl⟩

theorem step_eq_next (s : State) : ∃ t, step s = .next t ∧ (s.Inv → t.Inv) := by
  cases hreq : s.requests with
  | nil => exact ⟨s, step_of_no_request hreq, id⟩
  | cons r rs =>
    cases r with
    | pass input rdFail wrFail =>
      obtain ⟨result, hconsistent, -, hstep⟩ := step_of_pass_eq_next hreq
      exact ⟨_, hstep, fun _ => ⟨hconsistent, rfl⟩⟩
    | encode q => exact ⟨_, step_of_request hreq, id⟩
    | decode q => exact ⟨_, step_of_request hreq, id⟩
    | lower q => exact ⟨_, step_of_request hreq, id⟩
    | reset => exact ⟨_, step_of_reset hreq, fun ⟨_, hwords⟩ => ⟨rfl, hwords⟩⟩

/-- Settles O53: a pass leaves its record, a reset the reset values, and nothing else touches the pass state or the
words. -/
theorem everyStepKeepsPassConsistency : Obligations.EveryStepKeepsPassConsistency := by
  unfold Obligations.EveryStepKeepsPassConsistency
  intro s t hinv hstep
  obtain ⟨t', hstep', hkeeps⟩ := step_eq_next s
  obtain rfl : t' = t := Host.Outcome.next.inj (hstep'.symm.trans hstep)
  exact hkeeps hinv

/-- Settles O3: every request has a next state, and a pass's record has an error exactly in Failed. -/
theorem everyErrorIsAFinalStateAndNoMissingStep : Obligations.EveryErrorIsAFinalStateAndNoMissingStep := by
  unfold Obligations.EveryErrorIsAFinalStateAndNoMissingStep
  intro s
  obtain ⟨t, hstep, -⟩ := step_eq_next s
  refine ⟨t, hstep, fun rs input rdFail wrFail hreq _ => ?_⟩
  obtain ⟨result, -, hphase, hstep'⟩ := step_of_pass_eq_next hreq
  obtain rfl := Host.Outcome.next.inj (hstep'.symm.trans hstep)
  obtain ⟨hdone, herr⟩ | ⟨hfailed, herr⟩ := hphase
  · simp [hdone, herr]
  · simp [hfailed, herr]

end Sys2Proof.Machine
end

section
/-! SUPPORT. The operations of a pass, run by their meanings (43_pass_and_emitter.md R190), and the pass over the
canonical spelling of a table word's operation (42_parser.md R174). -/

namespace Sys2Proof.Machine

/-! ### Stage 3 -/

/-- Stage 3 as a fold of the meanings. -/
theorem foldl_exec_lowered {prog : List Op} {is : List Instr} (h : prog.map instrOfOp = is.map some) (s : State) :
    is.foldl (fun r i => andThen r (exec i)) (.next s) = .next { s with words := s.words ++ loweredWords prog } := by
  induction prog generalizing is s with
  | nil =>
    obtain rfl : is = [] := by simpa using h.symm
    simp
  | cons o os ih =>
    obtain ⟨i, is', rfl, hi, his⟩ := List.map_eq_cons_iff.1 h.symm
    rw [List.foldl_cons, andThen_next, exec_appends_lowered_word hi.symm, ih his.symm]
    simp [appendWord]

theorem step_of_parsed_pass {s : State} {rs : List Request} {input : List Byte} {prog : List Op} {is : List Instr}
    (hreq : s.requests = .pass input false none :: rs) (hparse : parse Config.litOvf input = .ok prog)
    (his : prog.map instrOfOp = is.map some) :
    step s = andThen
      (is.foldl (fun r i => andThen r (exec i))
        (.next { s with pass := ⟨.idle, input, prog, [], none⟩, words := [], requests := rs }))
      (fun t => .next { t with
        pass := { t.pass with outbuf := bytesOfWords t.words, phase := .done }, words := [] }) := by
  rw [step_of_pass hreq, runPass_of_no_failure hparse, foldl_exec_lowered his, andThen_next]
  rfl

/-- Settles O41: the meanings append the words the general lowering gives, and stage 4 emits them. -/
theorem stepRunsTheParsedOperations : Obligations.StepRunsTheParsedOperations := by
  unfold Obligations.StepRunsTheParsedOperations
  exact fun s rs input prog is => step_of_parsed_pass

/-! ### A placed table word -/

theorem newline_not_mem_of_isLine {p : LitOvf} {l : List Byte} {o : Op} (h : IsLine p l o) : newline ∉ l := fun hmem =>
  absurd (List.all_eq_true.1 (isLine_grammarBytes h) newline hmem) (by decide)

theorem parse_spell (p : LitOvf) (i : Instr) : parse p (spell i ++ [newline]) = .ok [opOfInstr i] := by
  have hlines : linesOf ([spell i].flatMap fun l => l ++ [newline]) = [spell i] :=
    linesOf_of_last_newline (List.forall_mem_singleton.2 (newline_not_mem_of_isLine (isLine_spell p i)))
  rw [List.flatMap_singleton] at hlines
  rw [parse, hlines, parseLines_eq_ok, List.map_singleton, parseLine_spell, List.map_singleton]

theorem textOfTableWord_of_decode {w : Nat} {i : Instr} (h : decodeTableWord 32 w = some i) :
    textOfTableWord 32 w = spell i ++ [newline] := by
  rw [textOfTableWord, h]

theorem step_withFetchWord {w : Nat} {i : Instr} (h : decodeTableWord 32 w = some i) (s : State) :
    step (s.withFetchWord 32 w) = andThen
      (exec i { s with pass := ⟨.idle, spell i ++ [newline], [opOfInstr i], [], none⟩, words := [] })
      (fun t => .next { t with
        pass := { t.pass with outbuf := bytesOfWords t.words, phase := .done }, words := [] }) := by
  have hreq : (s.withFetchWord 32 w).requests = .pass (spell i ++ [newline]) false none :: s.requests := by
    rw [← textOfTableWord_of_decode h]
    rfl
  have hmapped : [opOfInstr i].map instrOfOp = [i].map some := by simp
  exact step_of_parsed_pass hreq (parse_spell _ i) hmapped

/-- Settles O42: the placed text parses to the operation alone. -/
theorem stepRunsTheOperationOfAPlacedWord : Obligations.StepRunsTheOperationOfAPlacedWord := by
  unfold Obligations.StepRunsTheOperationOfAPlacedWord
  exact fun s w i h => step_withFetchWord h s

/-- Settles O43: the operation appends its table word, and that is the word it was read from (O30's law). -/
theorem assemblingADecodedWordGivesTheWordBack : Obligations.AssemblingADecodedWordGivesTheWordBack := by
  unfold Obligations.AssemblingADecodedWordGivesTheWordBack
  intro s w i h
  obtain ⟨hword, -⟩ := encode_of_decodeWord ((decodeTableWord_eq_some_iff w i).1 h)
  have hstep := step_withFetchWord h s
  rw [exec_appends_encode, andThen_next, hword] at hstep
  exact ⟨_, hstep, rfl⟩

end Sys2Proof.Machine
end
